-- ==== Sys2Proof/Word.lean ====
section
/-! DEFINITION. The word of the machine (00_scope R6, R14): a mathematical integer between WMIN and WMAX.

A memory word, an input value, an output value and pc are words. The encoding is decimal and no rule uses a bit of a word
(R14, R55), so a word is an `Int` in the range `isWord`, and not a bit vector; the model writes its type as `Int`, so that
linear arithmetic applies to it as it stands. That everything the machine holds is a word is an invariant
(`State.inv` in Safety.lean). -/

namespace Sys2Proof

/-- WMIN = -2^(W-1) (R6). -/
def wmin (W : Nat) : Int := -(2 ^ (W - 1))

/-- WMAX = 2^(W-1) - 1 (R6). -/
def wmax (W : Nat) : Int := 2 ^ (W - 1) - 1

/-- `v` is a word of width W: WMIN <= v <= WMAX (R6). -/
abbrev isWord (W : Nat) (v : Int) : Prop := wmin W ≤ v ∧ v ≤ wmax W

end Sys2Proof
end

