-- ==== Sys2Proof/Machine/FaultRecord.lean ====
section
/-! DEFINITION. The fault kinds of the machine itself (10_state R25, 60_exceptions R121): the argument of `raise`. -/

namespace Sys2Proof.Machine

/-- The fault record held by RS = Faulted(reason) (R25). The numbers are the CAUSE column of R121. -/
inductive FaultRecord where
  /-- 1: the opcode of the fetched word is not 1 to 8 or 99; `code = w trem 100`. -/
  | invalidOpcode (code : Int)
  /-- 2: a checked mode digit is not 0 or 1. -/
  | invalidParameterMode (digit : Int)
  /-- 3: an access to an address outside [0, L). -/
  | outOfBounds (address : Int)
  /-- 4: Input with IQ empty. -/
  | inputExhausted
  /-- 5: a sum or product outside the word range, under OVERFLOW_POLICY = Fault. -/
  | arithmeticOverflow
  /-- 6: Output with OQ full, under a finite OUT_DEPTH. -/
  | outputOverflow
  /-- 7: SC = STEP_LIMIT at the start of a step. -/
  | stepLimitExceeded
  deriving DecidableEq, Repr

end Sys2Proof.Machine
end

