-- ==== Sys2Proof/Config.lean ====
section
/-! DEFINITION. The implementation parameters of 00_scope R6 to R13, as one record of plain data. -/

namespace Sys2Proof

/-- OVERFLOW_POLICY (R7): what Add and Multiply do with a result outside the word range. -/
inductive OverflowPolicy where
  | fault
  | wrap
  deriving DecidableEq, Repr

/-- MODE_CHECK (R9): which mode digits the decoder validates. -/
inductive ModeCheck where
  | sourcesOnly
  | firstTwoParams
  | always
  deriving DecidableEq, Repr

/-- JUMP_EVAL (R10): whether a jump that is not taken resolves its target operand. -/
inductive JumpEval where
  | lazy
  | eager
  deriving DecidableEq, Repr

/-- OUTPUT_MODE (R11): whether Output's operand uses mode digit 1 or is always in position mode. -/
inductive OutputMode where
  | honour
  | position
  deriving DecidableEq, Repr

/-- The eight parameters. They are inputs of the model and no step changes them (10_state, opening; log entry 1). -/
structure Config where
  /-- WORD_BITS, written W (R6); OPEN. -/
  wordBits : Nat
  /-- OVERFLOW_POLICY (R7). -/
  overflowPolicy : OverflowPolicy
  /-- MEM_MAX (R8); OPEN. -/
  memMax : Nat
  /-- MODE_CHECK (R9). -/
  modeCheck : ModeCheck
  /-- JUMP_EVAL (R10). -/
  jumpEval : JumpEval
  /-- OUTPUT_MODE (R11). -/
  outputMode : OutputMode
  /-- OUT_DEPTH (R12); `none` is `inf`. -/
  outDepth : Option Nat
  /-- STEP_LIMIT (R13). -/
  stepLimit : Option Nat
  deriving DecidableEq, Repr

/-- The parameters State.reset carries: the spec's default for each of R7 and R9 to R13.
DESIGN CHOICE, unsafe (log entry 2): WORD_BITS and MEM_MAX are OPEN and the spec chooses no default; the model
takes W = 64 and the largest MEM_MAX that R8 then allows, WMAX - 3. -/
def Config.default : Config where
  wordBits := 64
  overflowPolicy := .fault
  memMax := 9223372036854775804
  modeCheck := .firstTwoParams
  jumpEval := .lazy
  outputMode := .honour
  outDepth := none
  stepLimit := none

end Sys2Proof
end

