-- ==== Sys2Proof/Syntax.lean ====
section
/-! DEFINITION. The instructions as the decoder delivers them, and the spec's own program notation (30_encoding). -/

namespace Sys2Proof

/-- A parameter mode (30_encoding R58): digit 0 is Position, digit 1 is Immediate. -/
inductive Mode where
  | position
  | immediate
  deriving DecidableEq, Repr

/-- The nine instructions of 30_encoding R62, each with the modes of its SOURCE parameters. A destination has no
mode (40_execution_cycle R82), and the raw parameters are not part of the decoded instruction: each slot is read from
memory only when its operand is resolved (30_encoding R61; 40_execution_cycle R86; log entry 8). -/
inductive Instr where
  /-- ADD, opcode 1 (41_arithmetic R95). -/
  | add (m1 m2 : Mode)
  /-- MUL, opcode 2 (41_arithmetic R96). -/
  | multiply (m1 m2 : Mode)
  /-- IN, opcode 3 (42_io R100). -/
  | input
  /-- OUT, opcode 4 (42_io R101). -/
  | output (m1 : Mode)
  /-- JT, opcode 5 (43_control R107). -/
  | jumpIfTrue (m1 m2 : Mode)
  /-- JF, opcode 6 (43_control R108). -/
  | jumpIfFalse (m1 m2 : Mode)
  /-- LT, opcode 7 (44_compare R115). -/
  | lessThan (m1 m2 : Mode)
  /-- EQ, opcode 8 (44_compare R116). -/
  | equals (m1 m2 : Mode)
  /-- HLT, opcode 99 (43_control R109). -/
  | halt
  deriving DecidableEq, Repr

/-- The instruction formats of 30_encoding R59. -/
inductive Format where
  /-- two sources, one destination -/
  | f3s
  /-- one destination -/
  | fd
  /-- one source -/
  | fs
  /-- two sources, no destination -/
  | f2s
  /-- no parameters -/
  | f0
  deriving DecidableEq, Repr

/-- A source operand in the notation of 30_encoding R69. -/
inductive Source where
  /-- `#n` -/
  | immediate (n : Int)
  /-- `[n]` -/
  | position (n : Int)
  deriving DecidableEq, Repr

/-- An instruction with its parameters, in the notation of 30_encoding R69, and the two pseudo-instructions of R70.
A destination `[d]` is the raw word `d`. -/
inductive Asm where
  | add (a b : Source) (d : Int)
  | multiply (a b : Source) (d : Int)
  | input (d : Int)
  | output (a : Source)
  | jumpIfTrue (c t : Source)
  | jumpIfFalse (c t : Source)
  | lessThan (a b : Source) (d : Int)
  | equals (a b : Source) (d : Int)
  | halt
  /-- `JMP t` is `JT #1, t` (R70). -/
  | jmp (t : Source)
  /-- `MOV a -> [d]` is `ADD a, #0 -> [d]` (R70). -/
  | mov (a : Source) (d : Int)
  deriving DecidableEq, Repr

/-- A line of a program in the notation of 30_encoding R69, labels already replaced by the addresses they name. -/
inductive Line where
  /-- an instruction or a pseudo-instruction -/
  | code (a : Asm)
  /-- `.word n` places the literal word n -/
  | word (n : Int)
  deriving DecidableEq, Repr

end Sys2Proof
end

