-- ==== Sys2Proof/WellFormed.lean ====
section
/-! DEFINITION. The checks on what comes from outside a run: the parameters (00_scope R8), what the host loads
(10_state R32, 60_exceptions R133) and a program's raw parameters (30_encoding R60). Every term of `Instr` is well formed:
its modes are typed, and an illegal digit is refused by the decoder. -/

namespace Sys2Proof

/-- MEM_MAX <= WMAX - 3 (00_scope R8). -/
abbrev Config.wf (c : Config) : Prop := (c.memMax : Int) ≤ wmax c.wordBits - 3

/-- The load accepts the image and the inputs: the image is no longer than MEM_MAX and every value is a word
(10_state R32, 60_exceptions R133). -/
abbrev loadable (c : Config) (image inputs : List Int) : Prop :=
  image.length ≤ c.memMax ∧ (∀ v ∈ image, isWord c.wordBits v) ∧ (∀ v ∈ inputs, isWord c.wordBits v)

/-- The raw parameter of a source operand. -/
def Source.raw : Source → Int
  | .immediate n => n
  | .position n => n

/-- The raw parameters of an instruction, slot pc+1 first (30_encoding R59, R60). -/
def Asm.params : Asm → List Int
  | .add a b d => [a.raw, b.raw, d]
  | .multiply a b d => [a.raw, b.raw, d]
  | .input d => [d]
  | .output a => [a.raw]
  | .jumpIfTrue c t => [c.raw, t.raw]
  | .jumpIfFalse c t => [c.raw, t.raw]
  | .lessThan a b d => [a.raw, b.raw, d]
  | .equals a b d => [a.raw, b.raw, d]
  | .halt => []
  | .jmp t => [1, t.raw]
  | .mov a d => [a.raw, 0, d]

/-- Every raw parameter is a word (30_encoding R60). -/
abbrev Asm.wf (W : Nat) (a : Asm) : Prop := ∀ v ∈ a.params, isWord W v

end Sys2Proof
end

