-- ==== Sys2Proof/Decode.lean ====
section
/-! DEFINITION. The instruction decoder and, after it, the encoder (30_encoding; 40_execution_cycle R78 to R82). -/

namespace Sys2Proof

open Machine (FaultRecord)

/-- `a tdiv b`: integer division truncated toward zero (00_scope R15). -/
def tdiv (a b : Int) : Int := Int.tdiv a b

/-- `a trem b = a - b * (a tdiv b)` (00_scope R15). -/
def trem (a b : Int) : Int := a - b * tdiv a b

/-- `dig(w, k)`: decimal digit k of w, digit 0 the units digit (00_scope R15). -/
def dig (w : Int) (k : Nat) : Int := trem (tdiv w (10 ^ k)) 10

/-- The opcode field OP (30_encoding R56). -/
def opcodeOf (w : Int) : Int := trem w 100

/-- The mode a digit stands for; used only for a checked digit, where it is 0 or 1 (40_execution_cycle R82, R89). -/
def modeOfDigit (d : Int) : Mode := if d = 0 then .position else .immediate

/-- The opcode map (30_encoding R62); `none` for an illegal opcode (R63). -/
def instrOf (op : Int) (m1 m2 : Mode) : Option Instr :=
  if op = 1 then some (.add m1 m2)
  else if op = 2 then some (.multiply m1 m2)
  else if op = 3 then some .input
  else if op = 4 then some (.output m1)
  else if op = 5 then some (.jumpIfTrue m1 m2)
  else if op = 6 then some (.jumpIfFalse m1 m2)
  else if op = 7 then some (.lessThan m1 m2)
  else if op = 8 then some (.equals m1 m2)
  else if op = 99 then some .halt
  else none

/-- The mode digits the decoder checks, in increasing parameter order: the table of 40_execution_cycle R80. -/
def checkedDigits (c : Config) (op d1 d2 : Int) : List Int :=
  match c.modeCheck with
  | .always => [d1, d2]
  | .firstTwoParams =>
    if op = 3 ∨ op = 4 then [d1]
    else if op = 99 then []
    else [d1, d2]
  | .sourcesOnly =>
    if op = 3 ∨ op = 99 then []
    else if op = 4 then (if c.outputMode = .honour then [d1] else [])
    else [d1, d2]

/-- The mode check (40_execution_cycle R81): the first digit that is not 0 or 1 faults. -/
def checkDigits : List Int → Except FaultRecord Unit
  | [] => .ok ()
  | d :: ds => if d = 0 ∨ d = 1 then checkDigits ds else .error (.invalidParameterMode d)

/-- The opcode validation (40_execution_cycle R79). -/
def selectInstr (op d1 d2 : Int) : Except FaultRecord Instr :=
  match instrOf op (modeOfDigit d1) (modeOfDigit d2) with
  | some i => .ok i
  | none => .error (.invalidOpcode op)

/-- The decoder: opcode, digits 2 and 3, and no other digit of the word (40_execution_cycle R78); the opcode is
validated before the modes, except under MODE_CHECK = Always (R79, R81, R89). -/
def decode (c : Config) (w : Int) : Except FaultRecord Instr :=
  let op := opcodeOf w
  let d1 := dig w 2
  let d2 := dig w 3
  if c.modeCheck = .always then do
    checkDigits (checkedDigits c op d1 d2)
    selectInstr op d1 d2
  else do
    let i ← selectInstr op d1 d2
    checkDigits (checkedDigits c op d1 d2)
    return i

/-- The opcode of an instruction (30_encoding R62). -/
def Instr.opcode : Instr → Int
  | .add _ _ => 1
  | .multiply _ _ => 2
  | .input => 3
  | .output _ => 4
  | .jumpIfTrue _ _ => 5
  | .jumpIfFalse _ _ => 6
  | .lessThan _ _ => 7
  | .equals _ _ => 8
  | .halt => 99

/-- The format of an instruction (30_encoding R59). -/
def Instr.format : Instr → Format
  | .add _ _ => .f3s
  | .multiply _ _ => .f3s
  | .input => .fd
  | .output _ => .fs
  | .jumpIfTrue _ _ => .f2s
  | .jumpIfFalse _ _ => .f2s
  | .lessThan _ _ => .f3s
  | .equals _ _ => .f3s
  | .halt => .f0

/-- The words of a format, the instruction word included (30_encoding R59, R61). -/
def Format.words : Format → Nat
  | .f3s => 4
  | .fd => 2
  | .fs => 2
  | .f2s => 3
  | .f0 => 1

/-- The length of an instruction in words (30_encoding R61). -/
def Instr.length (i : Instr) : Nat := i.format.words

/-- The digit of a mode (30_encoding R58). -/
def Mode.digit : Mode → Int
  | .position => 0
  | .immediate => 1

/-- `OP + 100*m1 + 1000*m2` (30_encoding R67). -/
def encodeDigits (op d1 d2 : Int) : Int := op + 100 * d1 + 1000 * d2

/-- The instruction word of an instruction (30_encoding R67): the digit of a missing parameter and of a destination
is 0. -/
def encode (i : Instr) : Int :=
  match i with
  | .add m1 m2 => encodeDigits i.opcode m1.digit m2.digit
  | .multiply m1 m2 => encodeDigits i.opcode m1.digit m2.digit
  | .input => encodeDigits i.opcode 0 0
  | .output m1 => encodeDigits i.opcode m1.digit 0
  | .jumpIfTrue m1 m2 => encodeDigits i.opcode m1.digit m2.digit
  | .jumpIfFalse m1 m2 => encodeDigits i.opcode m1.digit m2.digit
  | .lessThan m1 m2 => encodeDigits i.opcode m1.digit m2.digit
  | .equals m1 m2 => encodeDigits i.opcode m1.digit m2.digit
  | .halt => encodeDigits i.opcode 0 0

/-- The mode of a source operand in the notation of 30_encoding R69. -/
def Source.mode : Source → Mode
  | .immediate _ => .immediate
  | .position _ => .position

/-- The instruction that a line of the notation stands for (30_encoding R69, R70). -/
def Asm.instr : Asm → Instr
  | .add a b _ => .add a.mode b.mode
  | .multiply a b _ => .multiply a.mode b.mode
  | .input _ => .input
  | .output a => .output a.mode
  | .jumpIfTrue c t => .jumpIfTrue c.mode t.mode
  | .jumpIfFalse c t => .jumpIfFalse c.mode t.mode
  | .lessThan a b _ => .lessThan a.mode b.mode
  | .equals a b _ => .equals a.mode b.mode
  | .halt => .halt
  | .jmp t => .jumpIfTrue .immediate t.mode
  | .mov a _ => .add a.mode .immediate

/-- The words of an instruction with its parameters (30_encoding R67): the instruction word, then the raw parameters. -/
def Asm.words (a : Asm) : List Int := encode a.instr :: a.params

/-- The words of a line (30_encoding R69). -/
def Line.words : Line → List Int
  | .code a => a.words
  | .word n => [n]

/-- The image of a program, address 0 first (30_encoding R69). -/
def assemble : List Line → List Int
  | [] => []
  | l :: ls => l.words ++ assemble ls

/-- A word of width W from its two's-complement bits (00_scope R14), read as a number. -/
def wordOfBits (W n : Nat) : Int :=
  if 2 * (n % 2 ^ W) < 2 ^ W then ((n % 2 ^ W : Nat) : Int) else ((n % 2 ^ W : Nat) : Int) - ((2 ^ W : Nat) : Int)

/-- The words of an instruction given as `nbits` bits numbered from the first word's bit 0 upward; bits above `nbits`
are 0, and four words are the longest instruction (30_encoding R59). -/
def tableWords (W nbits w : Nat) : List Int :=
  [wordOfBits W (w % 2 ^ nbits), wordOfBits W (w % 2 ^ nbits / 2 ^ W), wordOfBits W (w % 2 ^ nbits / 2 ^ (2 * W)),
    wordOfBits W (w % 2 ^ nbits / 2 ^ (3 * W))]

/-- What the decoder reads from an instruction given as bits, with the parameters of `Config.default`: the decoder
looks at the first word only (30_encoding R61). -/
def decodeTableWord (nbits w : Nat) : Option Instr :=
  match decode Config.default ((tableWords Config.default.wordBits nbits w).headD 0) with
  | .ok i => some i
  | .error _ => none

end Sys2Proof
end

