-- ==== Sys2Proof/Machine/State.lean ====
section
/-! DEFINITION. The state of the machine (10_state), the reasons a step can stop, and the state after reset. -/

namespace Sys2Proof.Machine

/-- The memory array M with its length L (10_state R21, R22). The smallest addressable unit is one whole word
(20_memory R41), so a cell is an address and a word. `cells` lists the cells below `len` whose word is not 0, addresses
strictly rising (`Memory.wf`); an address below `len` that is not listed holds the word 0 (log entry 4). -/
structure Memory where
  len : Nat
  cells : List (Nat × Int)
  deriving DecidableEq, Repr

/-- The run state RS with its fault record (10_state R24, R25). -/
inductive RunState where
  | running
  | halted
  | faulted (reason : FaultRecord)
  deriving DecidableEq, Repr

/-- The whole state. `cfg` is the model's own field: the parameters of the machine, which no step changes (log
entry 1). -/
structure State where
  /-- the parameters of 00_scope R6 to R13 -/
  cfg : Config
  /-- the memory array M and its length L (10_state R21, R22) -/
  mem : Memory
  /-- the program counter: any word, checked only at the fetch (10_state R23) -/
  pc : Int
  /-- the run state RS and its fault record (10_state R24, R25) -/
  rs : RunState
  /-- the input FIFO IQ, front first (10_state R27) -/
  iq : List Int
  /-- the output FIFO OQ, oldest first (10_state R28) -/
  oq : List Int
  /-- the step counter SC; it has a meaning only under a numeric STEP_LIMIT (10_state R29; log entry 7) -/
  sc : Nat
  deriving DecidableEq, Repr

/-- The interface's fault: the engine has NO step, because RS is terminal (10_state R24; 40_execution_cycle R75). The
machine's own faults are next states with RS = Faulted (60_exceptions R120; log entries 5 and 6). -/
inductive Fault where
  /-- Raised by `step` alone, in a state with RS = Halted. Safe: nothing happens after it but a new load. -/
  | alreadyHalted
  /-- Raised by `step` alone, in a state with RS = Faulted(reason). Safe: nothing happens after it but a new load. -/
  | alreadyFaulted (reason : FaultRecord)
  deriving DecidableEq, Repr

/-- A refusal of the model. -/
inductive Refusal where
  /-- An instruction without a meaning; no arm of `exec` answers it, since every instruction has its meaning. Safe. -/
  | notModelled (mnemonic : String)
  deriving DecidableEq, Repr

/-- The state after reset. The load is the only reset and a model starts from a load (10_state R32; 70_reset_and_hazards
R140, R141): this is the load of the empty image with no inputs, at the parameters of `Config.default` (log entries 2
and 3); pc = 0, RS = Running, OQ empty and SC = 0 are the values of 10_state R33. -/
def State.reset : State where
  cfg := Config.default
  mem := { len := 0, cells := [] }
  pc := 0
  rs := .running
  iq := []
  oq := []
  sc := 0

end Sys2Proof.Machine
end

