-- ==== Sys2Proof/Machine/Flags.lean ====
section
/-! DEFINITION. The machine has no flag (10_state R20). What takes their place stands here: the range rule of an
arithmetic result (41_arithmetic R98) and the word that a comparison writes (44_compare R117). -/

namespace Sys2Proof.Machine

/-- `wrap(v) = ((v - WMIN) mod 2^W) + WMIN` with the non-negative remainder (41_arithmetic R98). -/
def wrapWord (W : Nat) (v : Int) : Int := (v - wmin W) % 2 ^ W + wmin W

/-- `range(v)` (41_arithmetic R98): a result in the word range is unchanged; outside it OVERFLOW_POLICY decides. -/
def rangeResult (c : Config) (v : Int) : Except FaultRecord Int :=
  if isWord c.wordBits v then .ok v
  else match c.overflowPolicy with
    | .fault => .error .arithmeticOverflow
    | .wrap => .ok (wrapWord c.wordBits v)

/-- The word 1 for true and 0 for false (44_compare R117). -/
def truthWord (b : Bool) : Int := if b then 1 else 0

end Sys2Proof.Machine
end

