-- ==== Sys2Proof/Machine/Ops.lean ====
section
/-! DEFINITION. The named operations over memory, the program counter and the FIFOs (00_scope R16, R17), and the taking
of a fault as one shared operation (60_exceptions R120). There is no return from a fault (60_exceptions R127). -/

namespace Sys2Proof.Machine

/-- The word at an address: the listed one, else 0. -/
def lookupCell : List (Nat × Int) → Nat → Int
  | [], _ => 0
  | (b, u) :: rest, a => if a = b then u else lookupCell rest a

/-- Puts a non-zero word at its place in the address order. -/
def insertCell : List (Nat × Int) → Nat → Int → List (Nat × Int)
  | [], a, v => [(a, v)]
  | (b, u) :: rest, a, v =>
    if a < b then (a, v) :: (b, u) :: rest
    else if a = b then (a, v) :: rest
    else (b, u) :: insertCell rest a v

/-- Takes an address out of the list. -/
def eraseCell : List (Nat × Int) → Nat → List (Nat × Int)
  | [], _ => []
  | (b, u) :: rest, a => if a = b then eraseCell rest a else (b, u) :: eraseCell rest a

/-- The cells after a write: writing 0, what an unlisted address holds, removes the entry. -/
def setCell (cells : List (Nat × Int)) (a : Nat) (v : Int) : List (Nat × Int) :=
  if v = 0 then eraseCell cells a else insertCell cells a v

/-- Addresses strictly rise from `lo` and lie below `hi`, and no entry is 0. -/
def cellsWf (lo hi : Nat) : List (Nat × Int) → Bool
  | [] => true
  | (b, u) :: rest => decide (lo ≤ b ∧ b < hi ∧ u ≠ 0) && cellsWf (b + 1) hi rest

/-- The canonical form of a memory. -/
def Memory.wf (m : Memory) : Bool := cellsWf 0 m.len m.cells

/-- The word in cell `a`. -/
def Memory.get (m : Memory) (a : Nat) : Int := lookupCell m.cells a

/-- The memory with the word of cell `a` replaced; L does not change (10_state R21). -/
def Memory.set (m : Memory) (a : Nat) (v : Int) : Memory := { m with cells := setCell m.cells a v }

/-- `0 <= a < L`: the valid addresses (10_state R21). -/
abbrev Memory.inBounds (m : Memory) (a : Int) : Prop := 0 ≤ a ∧ a < (m.len : Int)

/-- The cells of an image placed from address `k` upward. -/
def cellsFrom : Nat → List Int → List (Nat × Int)
  | _, [] => []
  | k, v :: vs => if v = 0 then cellsFrom (k + 1) vs else (k, v) :: cellsFrom (k + 1) vs

/-- `M[a] <- image[a]` for every a below L, the length of the image (10_state R32). -/
def Memory.ofImage (image : List Int) : Memory := { len := image.length, cells := cellsFrom 0 image }

/-- `M[0..L-1]` in order (60_exceptions R131). -/
def Memory.toImage (m : Memory) : List Int := (List.range m.len).map m.get

/-- `MemRead(a, 1)` (00_scope R16; 20_memory R43). -/
def memRead (s : State) (a : Int) : Except FaultRecord Int :=
  if s.mem.inBounds a then .ok (s.mem.get a.toNat) else .error (.outOfBounds a)

/-- `MemWrite(a, 1, v)` (00_scope R16; 20_memory R43). -/
def memWrite (s : State) (a : Int) (v : Int) : Except FaultRecord State :=
  if s.mem.inBounds a then .ok { s with mem := s.mem.set a.toNat v } else .error (.outOfBounds a)

/-- `pc <- t` (00_scope R17), unchecked: the next fetch checks it (43_control R110). -/
def State.jumpTo (s : State) (t : Int) : State := { s with pc := t }

/-- `pc <- pc + n`, from the pc at which the instruction was fetched (40_execution_cycle R87). -/
def State.advance (s : State) (n : Int) : State := { s with pc := s.pc + n }

/-- `InPop()` (00_scope R17), faulting on an empty IQ (42_io R100). -/
def inPop (s : State) : Except FaultRecord (Int × State) :=
  match s.iq with
  | [] => .error .inputExhausted
  | v :: rest => .ok (v, { s with iq := rest })

/-- `OutPush(v)` (00_scope R17), faulting when OUT_DEPTH is finite and OQ holds that many words (42_io R101). -/
def outPush (s : State) (v : Int) : Except FaultRecord State :=
  if s.cfg.outDepth = some s.oq.length then .error .outputOverflow else .ok { s with oq := s.oq ++ [v] }

/-- `halt` (00_scope R17; 43_control R109). -/
def State.halted (s : State) : State := { s with rs := .halted }

/-- Fault entry: `raise F` sets RS and changes nothing else (60_exceptions R120). -/
def State.raise (s : State) (f : FaultRecord) : State := { s with rs := .faulted f }

/-- The end of an instruction rule: its result, or the fault taken in the state from BEFORE the instruction, so that a
faulting instruction has no other effect (20_memory R47; 60_exceptions R120, R126). Either way the machine has a next
state (log entry 6). -/
def settle (s : State) (r : Except FaultRecord State) : Host.Outcome State Fault Refusal :=
  match r with
  | .ok t => .next t
  | .error f => .next (s.raise f)

end Sys2Proof.Machine
end

