-- ==== Sys2Proof/Machine/Operands.lean ====
section
/-! DEFINITION. The operand resolver (40_execution_cycle R84 to R86) and the shared course of the instructions with the
same format. -/

namespace Sys2Proof.Machine

/-- `read(slot, mode)` (40_execution_cycle R84). -/
def readOperand (s : State) (slot : Int) (mode : Mode) : Except FaultRecord Int := do
  let r ← memRead s slot
  match mode with
  | .immediate => return r
  | .position => memRead s r

/-- `write_address(slot)` (40_execution_cycle R85). -/
def writeAddress (s : State) (slot : Int) : Except FaultRecord Int := do
  let r ← memRead s slot
  if s.mem.inBounds r then return r else throw (.outOfBounds r)

/-- Format F3S (30_encoding R59): both sources, then the destination, then the result and the one write
(40_execution_cycle R86, R87; 41_arithmetic R95). -/
def threeOperand (s : State) (m1 m2 : Mode) (result : Int → Int → Except FaultRecord Int) :
    Except FaultRecord State := do
  let a ← readOperand s (s.pc + 1) m1
  let b ← readOperand s (s.pc + 2) m2
  let d ← writeAddress s (s.pc + 3)
  let v ← result a b
  let t ← memWrite s d v
  return t.advance 4

/-- Format F2S (30_encoding R59): the condition, then the target if the jump is taken, and under JUMP_EVAL = Eager in
any case (43_control R107, R108). -/
def conditionalJump (s : State) (m1 m2 : Mode) (taken : Int → Bool) : Except FaultRecord State := do
  let c ← readOperand s (s.pc + 1) m1
  match s.cfg.jumpEval with
  | .lazy =>
    if taken c then do
      let t ← readOperand s (s.pc + 2) m2
      return s.jumpTo t
    else return s.advance 3
  | .eager => do
    let t ← readOperand s (s.pc + 2) m2
    if taken c then return s.jumpTo t else return s.advance 3

end Sys2Proof.Machine
end

