-- ==== Sys2Proof/Machine/Arithmetic.lean ====
section
/-! DEFINITION. The arithmetic instructions Add and Multiply (41_arithmetic). -/

namespace Sys2Proof.Machine

/-- ADD (41_arithmetic R95): the exact sum, under the range rule R98, into the destination. -/
def execAdd (m1 m2 : Mode) (s : State) : Host.Outcome State Fault Refusal :=
  settle s (threeOperand s m1 m2 fun a b => rangeResult s.cfg (a + b))

/-- MUL (41_arithmetic R96): the exact product, under the range rule R98, into the destination. -/
def execMultiply (m1 m2 : Mode) (s : State) : Host.Outcome State Fault Refusal :=
  settle s (threeOperand s m1 m2 fun a b => rangeResult s.cfg (a * b))

end Sys2Proof.Machine
end

