-- ==== Sys2Proof/Machine/Compare.lean ====
section
/-! DEFINITION. The comparison instructions Less-than and Equals (44_compare). -/

namespace Sys2Proof.Machine

/-- LT (44_compare R115): the signed comparison a < b, as the word 1 or 0, into the destination. -/
def execLessThan (m1 m2 : Mode) (s : State) : Host.Outcome State Fault Refusal :=
  settle s (threeOperand s m1 m2 fun a b => .ok (truthWord (decide (a < b))))

/-- EQ (44_compare R116): a = b, as the word 1 or 0, into the destination. -/
def execEquals (m1 m2 : Mode) (s : State) : Host.Outcome State Fault Refusal :=
  settle s (threeOperand s m1 m2 fun a b => .ok (truthWord (decide (a = b))))

end Sys2Proof.Machine
end

