-- ==== Sys2Proof/Machine/Control.lean ====
section
/-! DEFINITION. Control transfer: Jump-if-true, Jump-if-false and Halt (43_control). -/

namespace Sys2Proof.Machine

/-- JT (43_control R107): taken on any word but 0. -/
def execJumpIfTrue (m1 m2 : Mode) (s : State) : Host.Outcome State Fault Refusal :=
  settle s (conditionalJump s m1 m2 fun c => decide (c ≠ 0))

/-- JF (43_control R108): taken on the word 0 only. -/
def execJumpIfFalse (m1 m2 : Mode) (s : State) : Host.Outcome State Fault Refusal :=
  settle s (conditionalJump s m1 m2 fun c => decide (c = 0))

/-- HLT (43_control R109): RS becomes Halted, and pc stays at the Halt word. -/
def execHalt (s : State) : Host.Outcome State Fault Refusal :=
  .next s.halted

end Sys2Proof.Machine
end

