-- ==== Sys2Proof/Machine/InputOutput.lean ====
section
/-! DEFINITION. The input and output instructions (42_io). -/

namespace Sys2Proof.Machine

/-- The course of Input (42_io R100): the destination is resolved before IQ is examined. -/
def inputResult (s : State) : Except FaultRecord State := do
  let d ← writeAddress s (s.pc + 1)
  let (v, t) ← inPop s
  let u ← memWrite t d v
  return u.advance 2

/-- IN (42_io R100). -/
def execInput (s : State) : Host.Outcome State Fault Refusal :=
  settle s (inputResult s)

/-- The mode Output's operand is read in: M1 under OUTPUT_MODE = Honour, else Position (42_io R101). -/
def outputOperandMode (c : Config) (m1 : Mode) : Mode :=
  match c.outputMode with
  | .honour => m1
  | .position => .position

/-- The course of Output (42_io R101). -/
def outputResult (s : State) (m1 : Mode) : Except FaultRecord State := do
  let v ← readOperand s (s.pc + 1) (outputOperandMode s.cfg m1)
  let t ← outPush s v
  return t.advance 2

/-- OUT (42_io R101). -/
def execOutput (m1 : Mode) (s : State) : Host.Outcome State Fault Refusal :=
  settle s (outputResult s m1)

end Sys2Proof.Machine
end

