-- ==== Sys2Proof/Machine/Cycle.lean ====
section
/-! DEFINITION. The parts of a step around the instruction rule (40_execution_cycle R76 to R83, R88), and the placing of
an instruction's words for `State.withFetchWord`. -/

namespace Sys2Proof.Machine

/-- The step ceiling, the fetch and the decode, in that order (40_execution_cycle R76 to R82, R89). -/
def fetchDecode (s : State) : Except FaultRecord Instr :=
  if s.cfg.stepLimit = some s.sc then .error .stepLimitExceeded
  else do
    let w ← memRead s s.pc
    decode s.cfg w

/-- `if SC exists: SC <- SC + 1` (40_execution_cycle R88, R89). -/
def State.countStep (s : State) : State :=
  match s.cfg.stepLimit with
  | none => s
  | some _ => { s with sc := s.sc + 1 }

/-- The end of a step: a step that does not fault is counted, a Halt step too; a faulting step leaves SC unchanged
(40_execution_cycle R88). -/
def completeStep (o : Host.Outcome State Fault Refusal) : Host.Outcome State Fault Refusal :=
  match o with
  | .next t =>
    match t.rs with
    | .faulted _ => .next t
    | .halted => .next t.countStep
    | .running => .next t.countStep
  | .fault r => .fault r
  | .refused r => .refused r

/-- A step of the running engine (40_execution_cycle R89). -/
def stepRunning (s : State) : Host.Outcome State Fault Refusal :=
  match fetchDecode s with
  | .ok i => completeStep (exec i s)
  | .error f => .next (s.raise f)

/-- The memory with the words stored from address `a` upward, made longer where they reach past its end. -/
def placeWords (m : Memory) (a : Nat) : List Int → Memory
  | [] => m
  | v :: vs => placeWords (Memory.set { m with len := max m.len (a + 1) } a v) (a + 1) vs

/-- The parameters without a step ceiling that the state has already reached. -/
def liftCeiling (c : Config) (sc : Nat) : Config :=
  if c.stepLimit = some sc then { c with stepLimit := none } else c

/-- The state whose next step fetches the given words: a load stands behind it (log entry 3), so RS is Running, pc is an
address, and a step ceiling already reached is lifted. -/
def State.placeAtPc (s : State) (ws : List Int) : State :=
  { s with
    cfg := liftCeiling s.cfg s.sc
    mem := placeWords s.mem s.pc.toNat ws
    pc := (s.pc.toNat : Int)
    rs := .running }

end Sys2Proof.Machine
end

