-- ==== Sys2Proof/Machine/Step.lean ====
section
/-! DEFINITION. The step of the machine (40_execution_cycle R75, R89). -/

namespace Sys2Proof.Machine

/-- One step. The engine takes a step only while RS = Running; in a terminal state it has none (R75; log entry 5). -/
def step (s : State) : Host.Outcome State Fault Refusal :=
  match s.rs with
  | .running => stepRunning s
  | .halted => .fault .alreadyHalted
  | .faulted r => .fault (.alreadyFaulted r)

/-- The state whose next step fetches and runs the instruction whose bits are `w` (log entry 3). -/
def State.withFetchWord (s : State) (nbits w : Nat) : State :=
  s.placeAtPc (tableWords s.cfg.wordBits nbits w)

end Sys2Proof.Machine
end

