-- ==== Sys2Proof/Machine/HostOps.lean ====
section
/-! DEFINITION. What the host can do outside a run: load, status, outputs, final_memory (60_exceptions R131, R132). -/

namespace Sys2Proof.Machine

/-- `load(image, inputs)` of a machine with parameters `c` (10_state R32); `none` where the load is refused. -/
def loadImage (c : Config) (image inputs : List Int) : Option State :=
  if loadable c image inputs then
    some { cfg := c, mem := Memory.ofImage image, pc := 0, rs := .running, iq := inputs, oq := [], sc := 0 }
  else none

/-- The load of a machine that has run before: only when the engine is not Running, and nothing of the earlier run
survives (10_state R32; 60_exceptions R127, R131). -/
def State.hostLoad (s : State) (image inputs : List Int) : Option State :=
  match s.rs with
  | .running => none
  | .halted => loadImage s.cfg image inputs
  | .faulted _ => loadImage s.cfg image inputs

/-- The STATUS view (10_state R26). -/
structure StatusView where
  /-- STATE: 0 Running, 1 Halted, 2 Faulted -/
  state : Nat
  /-- CAUSE: the fault kind, 0 for none -/
  cause : Nat
  /-- INFO: the payload, 0 for none -/
  info : Int
  deriving DecidableEq, Repr

/-- CAUSE of a fault record (60_exceptions R121). -/
def causeOf : FaultRecord → Nat
  | .invalidOpcode _ => 1
  | .invalidParameterMode _ => 2
  | .outOfBounds _ => 3
  | .inputExhausted => 4
  | .arithmeticOverflow => 5
  | .outputOverflow => 6
  | .stepLimitExceeded => 7

/-- INFO of a fault record (60_exceptions R121). -/
def infoOf : FaultRecord → Int
  | .invalidOpcode code => code
  | .invalidParameterMode digit => digit
  | .outOfBounds address => address
  | .inputExhausted => 0
  | .arithmeticOverflow => 0
  | .outputOverflow => 0
  | .stepLimitExceeded => 0

/-- STATUS as a function of RS (10_state R26). -/
def State.status (s : State) : StatusView :=
  match s.rs with
  | .running => { state := 0, cause := 0, info := 0 }
  | .halted => { state := 1, cause := 0, info := 0 }
  | .faulted r => { state := 2, cause := causeOf r, info := infoOf r }

/-- `status()`: only in a terminal state (60_exceptions R131). -/
def State.hostStatus (s : State) : Option StatusView :=
  match s.rs with
  | .running => none
  | .halted => some s.status
  | .faulted _ => some s.status

/-- `outputs()`: only when RS = Halted (60_exceptions R131). -/
def State.hostOutputs (s : State) : Option (List Int) :=
  match s.rs with
  | .running => none
  | .halted => some s.oq
  | .faulted _ => none

/-- `final_memory()`: only when RS = Halted (60_exceptions R131). -/
def State.hostFinalMemory (s : State) : Option (List Int) :=
  match s.rs with
  | .running => none
  | .halted => some s.mem.toImage
  | .faulted _ => none

/-- What `execute` gives the host (60_exceptions R131, R132): nothing while Running, outputs and final memory on Halted,
only the fault on Faulted. -/
def State.hostResult (s : State) : Option (Except FaultRecord (List Int × List Int)) :=
  match s.rs with
  | .running => none
  | .halted => some (.ok (s.oq, s.mem.toImage))
  | .faulted r => some (.error r)

end Sys2Proof.Machine
end

