-- ==== Sys2Proof/Machine/Run.lean ====
section
/-! DEFINITION. The run (40_execution_cycle R90; 70_reset_and_hazards R148, R149), under fuel. -/

namespace Sys2Proof.Machine

/-- How a run under fuel ends. Running out of fuel is neither a halt nor a fault (70_reset_and_hazards R149). -/
inductive RunResult where
  /-- RS left Running: the terminal state. -/
  | ended (s : State)
  /-- The fuel ran out with RS = Running. -/
  | outOfFuel (s : State)
  deriving DecidableEq, Repr

/-- Repeats `step` until RS leaves Running, for at most the given number of steps (40_execution_cycle R90). -/
def runFor : Nat → State → RunResult
  | 0, s => if s.rs = .running then .outOfFuel s else .ended s
  | n + 1, s =>
    match step s with
    | .next t => runFor n t
    | .fault _ => .ended s
    | .refused _ => .ended s

end Sys2Proof.Machine
end

