-- ==== Sys2Proof/Safety.lean ====
section
/-! DEFINITION. What statements are said in: the invariant of the machine, terminal states, the
addresses an instruction's accesses check, and reachable states. -/

namespace Sys2Proof.Machine

/-- A terminal state (00_scope R19; 10_state R24). -/
abbrev State.terminal (s : State) : Prop := s.rs ≠ .running

/-- RS holds a fault record. -/
def RunState.isFaulted : RunState → Bool
  | .running => false
  | .halted => false
  | .faulted _ => true

/-- The memory is in canonical form, no longer than MEM_MAX, and every cell holds a word (10_state R21, R22). -/
abbrev State.memoryInv (s : State) : Prop :=
  s.mem.wf = true ∧ s.mem.len ≤ s.cfg.memMax ∧ ∀ c ∈ s.mem.cells, isWord s.cfg.wordBits c.2

/-- Both FIFOs hold words, and OQ is within OUT_DEPTH (10_state R27, R28). -/
abbrev State.fifoInv (s : State) : Prop :=
  (∀ v ∈ s.iq, isWord s.cfg.wordBits v) ∧ (∀ v ∈ s.oq, isWord s.cfg.wordBits v) ∧
    ∀ n ∈ s.cfg.outDepth, s.oq.length ≤ n

/-- The invariant of the machine: legal parameters (00_scope R8), memory and FIFOs hold words, pc is a word (10_state
R23), and SC is within STEP_LIMIT (10_state R29). -/
abbrev State.inv (s : State) : Prop :=
  s.cfg.wf ∧ s.memoryInv ∧ isWord s.cfg.wordBits s.pc ∧ s.fifoInv ∧ ∀ n ∈ s.cfg.stepLimit, s.sc ≤ n

/-- The addresses a source operand's accesses check (60_exceptions R122): its slot, and in Position mode its raw
parameter. An immediate operand checks its slot only. -/
abbrev State.sourceChecks (s : State) (k : Int) (m : Mode) (a : Int) : Prop :=
  a = s.pc + k ∨ (m = .position ∧ memRead s (s.pc + k) = .ok a)

/-- The addresses a destination's accesses check (60_exceptions R122): its slot and its raw parameter. -/
abbrev State.destinationChecks (s : State) (k : Int) (a : Int) : Prop :=
  a = s.pc + k ∨ memRead s (s.pc + k) = .ok a

/-- The addresses the operands of an instruction check: the slots of its format (30_encoding R59) below its length. A jump
checks its target's addresses only where it resolves the target: taken, or under JUMP_EVAL = Eager (43_control R107, R108);
the target itself is not checked (R110). -/
def State.operandChecks (s : State) (i : Instr) (a : Int) : Prop :=
  match i with
  | .add m1 m2 => s.sourceChecks 1 m1 a ∨ s.sourceChecks 2 m2 a ∨ s.destinationChecks 3 a
  | .multiply m1 m2 => s.sourceChecks 1 m1 a ∨ s.sourceChecks 2 m2 a ∨ s.destinationChecks 3 a
  | .input => s.destinationChecks 1 a
  | .output m1 => s.sourceChecks 1 (outputOperandMode s.cfg m1) a
  | .jumpIfTrue m1 m2 => s.sourceChecks 1 m1 a ∨
      ((s.cfg.jumpEval = .eager ∨ ∃ c, c ≠ 0 ∧ readOperand s (s.pc + 1) m1 = .ok c) ∧ s.sourceChecks 2 m2 a)
  | .jumpIfFalse m1 m2 => s.sourceChecks 1 m1 a ∨
      ((s.cfg.jumpEval = .eager ∨ readOperand s (s.pc + 1) m1 = .ok 0) ∧ s.sourceChecks 2 m2 a)
  | .lessThan m1 m2 => s.sourceChecks 1 m1 a ∨ s.sourceChecks 2 m2 a ∨ s.destinationChecks 3 a
  | .equals m1 m2 => s.sourceChecks 1 m1 a ∨ s.sourceChecks 2 m2 a ∨ s.destinationChecks 3 a
  | .halt => False

/-- The states that some number of steps leads to (40_execution_cycle R90). -/
inductive Reaches (s : State) : State → Prop where
  | start : Reaches s s
  | next {t u : State} : Reaches s t → step t = .next u → Reaches s u

end Sys2Proof.Machine
end

