-- ==== Sys2Proof/Certificates/Slice0/Obligations.lean ====
section
/-! DEFINITION. The statements for the provers, from the numbered rules of spec/. Each holds for every value of the
parameters (`cfg`) unless it names one. Where a docstring names a decision D<n> of 92_eei_decisions, the rule's words there
are the spec's own choice and not its source's (log entry 10). The rules R31, R46, R47, R56, R67, R89, R112 and R126 carry
the spec's own mark 'derived: from rule ...': the statements about them have basis derived. -/

open Sys2Proof Sys2Proof.Machine

/-! ## Words, decoding and encoding -/

/-- 00_scope R15: truncating division and its remainder. Decision D3 is the spec's own choice (log entry 9). -/
def Obligations.TruncatingDivisionAndRemainder : Prop :=
  ∀ a b : Int,
    a = b * tdiv a b + trem a b ∧
    (0 ≤ a → 0 ≤ trem a b) ∧
    (a ≤ 0 → trem a b ≤ 0) ∧
    (b ≠ 0 → |trem a b| < |b|) ∧
    (0 ≤ a → 0 < b → tdiv a b = a / b ∧ trem a b = a % b)

/-- Some words written out from 30_encoding R62, R67 and R68 and vectors DEC1 to DEC24, read at the default parameters. -/
def Obligations.WordsFromTheOpcodeMapDecode : Prop :=
  decode Config.default 1101 = .ok (.add .immediate .immediate) ∧
  decode Config.default 1002 = .ok (.multiply .position .immediate) ∧
  decode Config.default 103 = .ok .input ∧
  decode Config.default 104 = .ok (.output .immediate) ∧
  decode Config.default 1005 = .ok (.jumpIfTrue .position .immediate) ∧
  decode Config.default 106 = .ok (.jumpIfFalse .immediate .position) ∧
  decode Config.default 1107 = .ok (.lessThan .immediate .immediate) ∧
  decode Config.default 10008 = .ok (.equals .position .position) ∧
  decode Config.default 299 = .ok .halt

/-- 30_encoding R67 and R56: under every setting of the parameters the word of every instruction decodes to it, and so does
any word that differs only above digit 3. -/
def Obligations.DecodeOfEncodeIsTheInstruction : Prop :=
  ∀ (c : Config) (i : Instr) (k : Int), 0 ≤ k → decode c (encode i + 10000 * k) = .ok i

/-- The other direction (30_encoding R56, R57, R62, R67): a legal word is not negative, its two low digits are the
instruction's opcode, and where both mode digits are used (or, in Output under OUTPUT_MODE = Honour, the one) encoding the
instruction gives back the low digits of the word. That a negative word is not legal rests on truncating division: decision
D3, the spec's own choice from outside its source (log entry 9, PRESUMED). -/
def Obligations.EncodeOfDecodeIsTheUsedDigits : Prop :=
  ∀ (c : Config) (w : Int) (i : Instr), decode c w = .ok i →
    0 ≤ w ∧ i.opcode = w % 100 ∧
    (i.format = .f3s ∨ i.format = .f2s → encode i = w % 10000) ∧
    (i.format = .fs → c.outputMode = .honour → encode i = w % 1000)

/-- 30_encoding R56: two words that agree in digits 0 to 3 decode alike. -/
def Obligations.DigitsAboveThreeAreDontCare : Prop :=
  ∀ (c : Config) (w w' : Int), 0 ≤ w → 0 ≤ w' → w % 10000 = w' % 10000 → decode c w = decode c w'

/-- 30_encoding R57: every negative word is illegal, with the opcode and the digits in their ranges; under MODE_CHECK =
Always a non-zero mode digit is reported first. Decision D3 is the spec's own choice (log entry 9). -/
def Obligations.NegativeWordsAreIllegal : Prop :=
  ∀ (c : Config) (w : Int), w < 0 →
    (-99 ≤ trem w 100 ∧ trem w 100 ≤ 0) ∧ (-9 ≤ dig w 2 ∧ dig w 2 ≤ 0) ∧ (-9 ≤ dig w 3 ∧ dig w 3 ≤ 0) ∧
    decode c w = .error
      (if c.modeCheck = .always ∧ dig w 2 ≠ 0 then .invalidParameterMode (dig w 2)
       else if c.modeCheck = .always ∧ dig w 3 ≠ 0 then .invalidParameterMode (dig w 3)
       else .invalidOpcode (trem w 100))

/-- 30_encoding R66 with 40_execution_cycle R80: a word is legal exactly when its opcode is one of the nine and the digits
that MODE_CHECK has checked are 0 or 1. Decisions D4 and, for a negative word, D3 (log entry 9) are the spec's own
choices. -/
def Obligations.LegalWordsAreExactlyTheseOnes : Prop :=
  ∀ (c : Config) (w : Int),
    (∃ i, decode c w = .ok i) ↔
      ((1 ≤ trem w 100 ∧ trem w 100 ≤ 8) ∨ trem w 100 = 99) ∧
      (c.modeCheck = .always → (dig w 2 = 0 ∨ dig w 2 = 1) ∧ (dig w 3 = 0 ∨ dig w 3 = 1)) ∧
      (c.modeCheck = .firstTwoParams →
        (trem w 100 ≠ 99 → dig w 2 = 0 ∨ dig w 2 = 1) ∧
        (trem w 100 ≠ 99 → trem w 100 ≠ 3 → trem w 100 ≠ 4 → dig w 3 = 0 ∨ dig w 3 = 1)) ∧
      (c.modeCheck = .sourcesOnly →
        (trem w 100 = 4 → c.outputMode = .honour → dig w 2 = 0 ∨ dig w 2 = 1) ∧
        (trem w 100 ≠ 99 → trem w 100 ≠ 3 → trem w 100 ≠ 4 →
          (dig w 2 = 0 ∨ dig w 2 = 1) ∧ (dig w 3 = 0 ∨ dig w 3 = 1)))

/-- 30_encoding R62 with R56, R58, R59 and 40_execution_cycle R82, R89: the opcode map: the two low digits select the
instruction, with its format, its source modes are those of digits 2 and 3, and a word with any other opcode is not legal,
under every setting of the parameters. The mode of an Output digit that is not checked (MODE_CHECK = SourcesOnly with
OUTPUT_MODE = Position) is that of R89, which the model delivers and no meaning uses: the model's inference, log entry 8
(DEDUCED). For a negative word decision D3 is the spec's own choice (log entry 9). That each of these opcodes is legal is
LegalWordsAreExactlyTheseOnes. -/
def Obligations.OpcodeMapSelectsTheInstruction : Prop :=
  ∀ (c : Config) (w : Int) (i : Instr), decode c w = .ok i →
    (trem w 100 = 1 ∧ i.format = .f3s ∧
      i = .add (if dig w 2 = 0 then .position else .immediate) (if dig w 3 = 0 then .position else .immediate)) ∨
    (trem w 100 = 2 ∧ i.format = .f3s ∧
      i = .multiply (if dig w 2 = 0 then .position else .immediate) (if dig w 3 = 0 then .position else .immediate)) ∨
    (trem w 100 = 3 ∧ i.format = .fd ∧ i = .input) ∨
    (trem w 100 = 4 ∧ i.format = .fs ∧ i = .output (if dig w 2 = 0 then .position else .immediate)) ∨
    (trem w 100 = 5 ∧ i.format = .f2s ∧
      i = .jumpIfTrue (if dig w 2 = 0 then .position else .immediate) (if dig w 3 = 0 then .position else .immediate)) ∨
    (trem w 100 = 6 ∧ i.format = .f2s ∧
      i = .jumpIfFalse (if dig w 2 = 0 then .position else .immediate) (if dig w 3 = 0 then .position else .immediate)) ∨
    (trem w 100 = 7 ∧ i.format = .f3s ∧
      i = .lessThan (if dig w 2 = 0 then .position else .immediate) (if dig w 3 = 0 then .position else .immediate)) ∨
    (trem w 100 = 8 ∧ i.format = .f3s ∧
      i = .equals (if dig w 2 = 0 then .position else .immediate) (if dig w 3 = 0 then .position else .immediate)) ∨
    (trem w 100 = 99 ∧ i.format = .f0 ∧ i = .halt)

/-- 40_execution_cycle R79 and R81, 60_exceptions R124 items 3 to 5: which fault an illegal word reports. Decisions D4, D5,
D28 and, for a negative word, D3 (log entry 9) are the spec's own choices. -/
def Obligations.IllegalWordsReportInOrder : Prop :=
  ∀ (c : Config) (w : Int),
    (c.modeCheck ≠ .always → ¬((1 ≤ trem w 100 ∧ trem w 100 ≤ 8) ∨ trem w 100 = 99) →
      decode c w = .error (.invalidOpcode (trem w 100))) ∧
    (c.modeCheck = .always → ¬(dig w 2 = 0 ∨ dig w 2 = 1) → decode c w = .error (.invalidParameterMode (dig w 2))) ∧
    (c.modeCheck = .always → (dig w 2 = 0 ∨ dig w 2 = 1) → ¬(dig w 3 = 0 ∨ dig w 3 = 1) →
      decode c w = .error (.invalidParameterMode (dig w 3))) ∧
    (c.modeCheck = .always → (dig w 2 = 0 ∨ dig w 2 = 1) → (dig w 3 = 0 ∨ dig w 3 = 1) →
      ¬((1 ≤ trem w 100 ∧ trem w 100 ≤ 8) ∨ trem w 100 = 99) → decode c w = .error (.invalidOpcode (trem w 100))) ∧
    (c.modeCheck = .firstTwoParams → 1 ≤ trem w 100 → trem w 100 ≤ 8 → ¬(dig w 2 = 0 ∨ dig w 2 = 1) →
      decode c w = .error (.invalidParameterMode (dig w 2))) ∧
    (c.modeCheck = .sourcesOnly → trem w 100 = 4 → c.outputMode = .honour → ¬(dig w 2 = 0 ∨ dig w 2 = 1) →
      decode c w = .error (.invalidParameterMode (dig w 2))) ∧
    (c.modeCheck ≠ .always → 1 ≤ trem w 100 → trem w 100 ≤ 8 → trem w 100 ≠ 3 → trem w 100 ≠ 4 →
      (¬(dig w 2 = 0 ∨ dig w 2 = 1) → decode c w = .error (.invalidParameterMode (dig w 2))) ∧
      ((dig w 2 = 0 ∨ dig w 2 = 1) → ¬(dig w 3 = 0 ∨ dig w 3 = 1) →
        decode c w = .error (.invalidParameterMode (dig w 3))))

/-- 30_encoding R59, R61, R67, R69 and R70: the words of a line of the notation start with a word that decodes to its
instruction, have its length, and are words where the raw parameters are and W is at least 12. The notation is the spec's
own (D25). -/
def Obligations.AssembledWordsDecode : Prop :=
  ∀ (c : Config) (a : Asm),
    decode c (a.words.headD 0) = .ok a.instr ∧ a.words.length = a.instr.length ∧
    (12 ≤ c.wordBits → a.wf c.wordBits → ∀ v ∈ a.words, isWord c.wordBits v)

/-! ## Memory and the operand resolver -/

/-- 00_scope R16: the two memory primitives. A read gives the word of the cell; a write replaces it, is what a later read
of that cell gives, and leaves every other cell and the rest of the state alone; outside [0, L) both raise OutOfBounds. -/
def Obligations.MemoryPrimitivesReadAndReplaceOneCell : Prop :=
  ∀ (s : State) (a : Int) (v : Int),
    (0 ≤ a ∧ a < (s.mem.len : Int) →
      memRead s a = .ok (s.mem.get a.toNat) ∧
      ∃ t, memWrite s a v = .ok t ∧ t = { s with mem := t.mem } ∧ t.mem.len = s.mem.len ∧
        memRead t a = .ok v ∧ ∀ b, b ≠ a → memRead t b = memRead s b) ∧
    (¬(0 ≤ a ∧ a < (s.mem.len : Int)) →
      memRead s a = .error (.outOfBounds a) ∧ memWrite s a v = .error (.outOfBounds a))

/-- 20_memory R43: every access is checked: the fetch, a slot, a pointee, a destination. Each raises OutOfBounds with the
address that failed. -/
def Obligations.EveryAccessIsBoundsChecked : Prop :=
  ∀ (s : State) (a : Int), ¬(0 ≤ a ∧ a < (s.mem.len : Int)) →
    (memRead s a = .error (.outOfBounds a) ∧ ∀ v, memWrite s a v = .error (.outOfBounds a)) ∧
    (s.rs = .running → s.cfg.stepLimit ≠ some s.sc → s.pc = a → step s = .next (s.raise (.outOfBounds a))) ∧
    (∀ m, readOperand s a m = .error (.outOfBounds a)) ∧
    writeAddress s a = .error (.outOfBounds a) ∧
    (∀ slot, memRead s slot = .ok a →
      readOperand s slot .position = .error (.outOfBounds a) ∧ writeAddress s slot = .error (.outOfBounds a))

/-- 30_encoding R60 (and 40_execution_cycle R84, R85): the raw parameter is the whole word of its slot; an immediate operand
is the raw parameter itself; a position operand is the word at that address, and a destination is that address, with no
base, offset or scaling. These are all the addressing modes. -/
def Obligations.RawParametersAreWholeWords : Prop :=
  ∀ (s : State) (slot : Int) (r : Int), memRead s slot = .ok r →
    readOperand s slot .immediate = .ok r ∧
    (∀ v, memRead s r = .ok v → readOperand s slot .position = .ok v) ∧
    (0 ≤ r ∧ r < (s.mem.len : Int) → writeAddress s slot = .ok r) ∧
    ∀ m : Mode, m = .immediate ∨ m = .position

/-- 40_execution_cycle R85: a destination is the raw parameter, checked when it is resolved, so that the write that follows
cannot fault; a slot or an address outside [0, L) raises OutOfBounds. -/
def Obligations.WriteAddressIsTheCheckedRawParameter : Prop :=
  ∀ (s : State) (slot : Int),
    (¬(0 ≤ slot ∧ slot < (s.mem.len : Int)) → writeAddress s slot = .error (.outOfBounds slot)) ∧
    (∀ r, memRead s slot = .ok r → ¬(0 ≤ r ∧ r < (s.mem.len : Int)) →
      writeAddress s slot = .error (.outOfBounds r)) ∧
    (∀ r, memRead s slot = .ok r → 0 ≤ r ∧ r < (s.mem.len : Int) →
      writeAddress s slot = .ok r ∧ ∀ v, ∃ t, memWrite s r v = .ok t)

/-! ## Arithmetic and comparison -/

/-- 41_arithmetic R95: Add completes with the exact sum in the destination and pc + 4, and nothing else changed. -/
def Obligations.AddWritesTheSum : Prop :=
  ∀ (s : State) (m1 m2 : Mode) (a b : Int) (d : Int),
    readOperand s (s.pc + 1) m1 = .ok a → readOperand s (s.pc + 2) m2 = .ok b → writeAddress s (s.pc + 3) = .ok d →
    isWord s.cfg.wordBits (a + b) →
    exec (.add m1 m2) s = .next { s with mem := s.mem.set d.toNat (a + b), pc := s.pc + 4 }

/-- 41_arithmetic R96: Multiply completes with the exact product in the destination and pc + 4, and nothing else changed. -/
def Obligations.MultiplyWritesTheProduct : Prop :=
  ∀ (s : State) (m1 m2 : Mode) (a b : Int) (d : Int),
    readOperand s (s.pc + 1) m1 = .ok a → readOperand s (s.pc + 2) m2 = .ok b → writeAddress s (s.pc + 3) = .ok d →
    isWord s.cfg.wordBits (a * b) →
    exec (.multiply m1 m2) s = .next { s with mem := s.mem.set d.toNat (a * b), pc := s.pc + 4 }

/-- 41_arithmetic R98: a result outside the word range raises ArithmeticOverflow under OVERFLOW_POLICY = Fault, and is
wrapped under Wrap, in Add and in Multiply. Decisions D2 and D6 are the spec's own choices. -/
def Obligations.ArithmeticOutOfRangeFaultsOrWraps : Prop :=
  ∀ (s : State) (m1 m2 : Mode) (a b : Int) (d : Int),
    readOperand s (s.pc + 1) m1 = .ok a → readOperand s (s.pc + 2) m2 = .ok b → writeAddress s (s.pc + 3) = .ok d →
    (¬isWord s.cfg.wordBits (a + b) →
      (s.cfg.overflowPolicy = .fault → exec (.add m1 m2) s = .next (s.raise .arithmeticOverflow)) ∧
      (s.cfg.overflowPolicy = .wrap → exec (.add m1 m2) s =
        .next { s with mem := s.mem.set d.toNat (wrapWord s.cfg.wordBits (a + b)), pc := s.pc + 4 })) ∧
    (¬isWord s.cfg.wordBits (a * b) →
      (s.cfg.overflowPolicy = .fault → exec (.multiply m1 m2) s = .next (s.raise .arithmeticOverflow)) ∧
      (s.cfg.overflowPolicy = .wrap → exec (.multiply m1 m2) s =
        .next { s with mem := s.mem.set d.toNat (wrapWord s.cfg.wordBits (a * b)), pc := s.pc + 4 }))

/-- 41_arithmetic R98: the wrapped result is a word, congruent to the exact one modulo 2^W: the low W bits read as a
two's-complement number. Decision D2 is the spec's own choice. -/
def Obligations.WrapIsTwosComplement : Prop :=
  ∀ (W : Nat) (v : Int), 1 ≤ W →
    isWord W (wrapWord W v) ∧ (∃ k : Int, wrapWord W v = v + k * 2 ^ W) ∧ wrapWord W v = (BitVec.ofInt W v).toInt ∧
    (isWord W v → wrapWord W v = v)

/-- 44_compare R115 and R117: Less-than completes with the word 1 or 0 of the signed comparison and pc + 4. -/
def Obligations.LessThanWritesOneOrZero : Prop :=
  ∀ (s : State) (m1 m2 : Mode) (a b : Int) (d : Int),
    readOperand s (s.pc + 1) m1 = .ok a → readOperand s (s.pc + 2) m2 = .ok b → writeAddress s (s.pc + 3) = .ok d →
    exec (.lessThan m1 m2) s = .next { s with mem := s.mem.set d.toNat (if a < b then 1 else 0), pc := s.pc + 4 }

/-- 44_compare R116 and R117: Equals completes with the word 1 or 0 of the equality and pc + 4. -/
def Obligations.EqualsWritesOneOrZero : Prop :=
  ∀ (s : State) (m1 m2 : Mode) (a b : Int) (d : Int),
    readOperand s (s.pc + 1) m1 = .ok a → readOperand s (s.pc + 2) m2 = .ok b → writeAddress s (s.pc + 3) = .ok d →
    exec (.equals m1 m2) s = .next { s with mem := s.mem.set d.toNat (if a = b then 1 else 0), pc := s.pc + 4 }

/-- 40_execution_cycle R86, 60_exceptions R124 item 6: in the four three-operand instructions the first operand that does
not resolve is the fault reported, in the order source 1, source 2, destination. Decision D6 is the spec's own choice. -/
def Obligations.ThreeOperandFaultsInSlotOrder : Prop :=
  ∀ (s : State) (m1 m2 : Mode) (f : FaultRecord),
    ∀ i ∈ [Instr.add m1 m2, .multiply m1 m2, .lessThan m1 m2, .equals m1 m2],
      (readOperand s (s.pc + 1) m1 = .error f → exec i s = .next (s.raise f)) ∧
      (∀ a, readOperand s (s.pc + 1) m1 = .ok a → readOperand s (s.pc + 2) m2 = .error f →
        exec i s = .next (s.raise f)) ∧
      (∀ a b, readOperand s (s.pc + 1) m1 = .ok a → readOperand s (s.pc + 2) m2 = .ok b →
        writeAddress s (s.pc + 3) = .error f → exec i s = .next (s.raise f))

/-- FRAME of the four three-operand instructions (10_state R31): the parameters, L, IQ, OQ and SC are unchanged, RS is
unchanged but for a fault, and every address but the destination reads as before. -/
def Obligations.ThreeOperandFrame : Prop :=
  ∀ (s t : State) (m1 m2 : Mode),
    ∀ i ∈ [Instr.add m1 m2, .multiply m1 m2, .lessThan m1 m2, .equals m1 m2], exec i s = .next t →
      t.cfg = s.cfg ∧ t.mem.len = s.mem.len ∧ t.iq = s.iq ∧ t.oq = s.oq ∧ t.sc = s.sc ∧
      (t.rs = s.rs ∨ t.rs.isFaulted = true) ∧
      ∀ a, writeAddress s (s.pc + 3) ≠ .ok a → memRead t a = memRead s a

/-! ## Input and output -/

/-- 42_io R100: Input completes by moving the front word of IQ into the destination, with pc + 2. -/
def Obligations.InputPopsIntoTheDestination : Prop :=
  ∀ (s : State) (d : Int) (v : Int) (rest : List Int),
    writeAddress s (s.pc + 1) = .ok d → s.iq = v :: rest →
    exec .input s = .next { s with mem := s.mem.set d.toNat v, iq := rest, pc := s.pc + 2 }

/-- 42_io R100: Input faults on its destination first, whatever IQ holds, and then on an empty IQ. Decision D9 is the
spec's own choice. -/
def Obligations.InputFaultsOnDestinationThenEmptyQueue : Prop :=
  ∀ (s : State),
    (∀ f, writeAddress s (s.pc + 1) = .error f → exec .input s = .next (s.raise f)) ∧
    (∀ d, writeAddress s (s.pc + 1) = .ok d → s.iq = [] → exec .input s = .next (s.raise .inputExhausted))

/-- FRAME of Input (10_state R31): the parameters, L, OQ and SC are unchanged, IQ is unchanged or loses its front word, RS
is unchanged but for a fault, and every address but the destination reads as before. -/
def Obligations.InputFrame : Prop :=
  ∀ (s t : State), exec .input s = .next t →
    t.cfg = s.cfg ∧ t.mem.len = s.mem.len ∧ t.oq = s.oq ∧ t.sc = s.sc ∧
    (t.rs = s.rs ∨ t.rs.isFaulted = true) ∧ (t.iq = s.iq ∨ ∃ v, s.iq = v :: t.iq) ∧
    ∀ a, writeAddress s (s.pc + 1) ≠ .ok a → memRead t a = memRead s a

/-- 42_io R101: Output completes by appending its operand to OQ, with pc + 2; the operand is read in mode M1 under
OUTPUT_MODE = Honour and in position mode under Position. Decisions D8 and D15 are the spec's own choices. -/
def Obligations.OutputAppendsItsOperand : Prop :=
  ∀ (s : State) (m1 : Mode) (v : Int),
    readOperand s (s.pc + 1) (if s.cfg.outputMode = .honour then m1 else .position) = .ok v →
    s.cfg.outDepth ≠ some s.oq.length →
    exec (.output m1) s = .next { s with oq := s.oq ++ [v], pc := s.pc + 2 }

/-- 42_io R101: Output faults on its operand first, and then on a full OQ under a finite OUT_DEPTH. Decisions D8 and D15
are the spec's own choices. -/
def Obligations.OutputFaultsOnOperandThenFullQueue : Prop :=
  ∀ (s : State) (m1 : Mode),
    (∀ f, readOperand s (s.pc + 1) (if s.cfg.outputMode = .honour then m1 else .position) = .error f →
      exec (.output m1) s = .next (s.raise f)) ∧
    (∀ v, readOperand s (s.pc + 1) (if s.cfg.outputMode = .honour then m1 else .position) = .ok v →
      s.cfg.outDepth = some s.oq.length → exec (.output m1) s = .next (s.raise .outputOverflow))

/-- FRAME of Output (10_state R31): the parameters, the memory, IQ and SC are unchanged, OQ is unchanged or gains one word
at its back, and RS is unchanged but for a fault. -/
def Obligations.OutputFrame : Prop :=
  ∀ (s t : State) (m1 : Mode), exec (.output m1) s = .next t →
    t.cfg = s.cfg ∧ t.mem = s.mem ∧ t.iq = s.iq ∧ t.sc = s.sc ∧
    (t.rs = s.rs ∨ t.rs.isFaulted = true) ∧ (t.oq = s.oq ∨ ∃ v, t.oq = s.oq ++ [v])

/-! ## Control transfer -/

/-- 43_control R107: Jump-if-true completes on its target where the condition is not 0, and on pc + 3 where it is 0; an
untaken jump needs its target only under JUMP_EVAL = Eager. Decision D7 is the spec's own choice. -/
def Obligations.JumpIfTrueSetsThePc : Prop :=
  ∀ (s : State) (m1 m2 : Mode) (c : Int), readOperand s (s.pc + 1) m1 = .ok c →
    (c ≠ 0 → ∀ t, readOperand s (s.pc + 2) m2 = .ok t → exec (.jumpIfTrue m1 m2) s = .next { s with pc := t }) ∧
    (c = 0 → (s.cfg.jumpEval = .eager → ∃ t, readOperand s (s.pc + 2) m2 = .ok t) →
      exec (.jumpIfTrue m1 m2) s = .next { s with pc := s.pc + 3 })

/-- 43_control R108: Jump-if-false completes on its target where the condition is 0, and on pc + 3 where it is not; an
untaken jump needs its target only under JUMP_EVAL = Eager. Decision D7 is the spec's own choice. -/
def Obligations.JumpIfFalseSetsThePc : Prop :=
  ∀ (s : State) (m1 m2 : Mode) (c : Int), readOperand s (s.pc + 1) m1 = .ok c →
    (c = 0 → ∀ t, readOperand s (s.pc + 2) m2 = .ok t → exec (.jumpIfFalse m1 m2) s = .next { s with pc := t }) ∧
    (c ≠ 0 → (s.cfg.jumpEval = .eager → ∃ t, readOperand s (s.pc + 2) m2 = .ok t) →
      exec (.jumpIfFalse m1 m2) s = .next { s with pc := s.pc + 3 })

/-- 43_control R107 and R108: a jump faults on its condition, and on its target when it is taken, and always under
JUMP_EVAL = Eager. Decision D7 is the spec's own choice. -/
def Obligations.JumpFaultsOnConditionThenTarget : Prop :=
  ∀ (s : State) (m1 m2 : Mode) (f : FaultRecord),
    (readOperand s (s.pc + 1) m1 = .error f →
      exec (.jumpIfTrue m1 m2) s = .next (s.raise f) ∧ exec (.jumpIfFalse m1 m2) s = .next (s.raise f)) ∧
    (∀ c, readOperand s (s.pc + 1) m1 = .ok c → readOperand s (s.pc + 2) m2 = .error f →
      (c ≠ 0 ∨ s.cfg.jumpEval = .eager → exec (.jumpIfTrue m1 m2) s = .next (s.raise f)) ∧
      (c = 0 ∨ s.cfg.jumpEval = .eager → exec (.jumpIfFalse m1 m2) s = .next (s.raise f)))

/-- FRAME of the jumps (10_state R31; 43_control R107, R108: 'State written: pc only'): everything but pc is unchanged, and
RS but for a fault. -/
def Obligations.JumpFrame : Prop :=
  ∀ (s t : State) (m1 m2 : Mode), ∀ i ∈ [Instr.jumpIfTrue m1 m2, .jumpIfFalse m1 m2], exec i s = .next t →
    t.cfg = s.cfg ∧ t.mem = s.mem ∧ t.iq = s.iq ∧ t.oq = s.oq ∧ t.sc = s.sc ∧ (t.rs = s.rs ∨ t.rs.isFaulted = true)

/-- 43_control R109: Halt sets RS to Halted and changes nothing else; pc stays at the Halt word. Decision D12 is the spec's
own choice. -/
def Obligations.HaltSetsTheRunStateOnly : Prop :=
  ∀ s : State, exec .halt s = .next { s with rs := .halted }

/-- 43_control R110: a taken jump loads any word unchecked; the next step's fetch faults OutOfBounds(target) with pc equal to
the target, and memory, IQ and OQ are as before the jump. Decision D11 is the spec's own choice. -/
def Obligations.OutOfRangeJumpFaultsAtTheNextFetch : Prop :=
  ∀ (s : State) (w : Int) (m1 m2 : Mode) (c x : Int),
    s.rs = .running → s.cfg.stepLimit = none → memRead s s.pc = .ok w →
    ((decode s.cfg w = .ok (.jumpIfTrue m1 m2) ∧ c ≠ 0) ∨ (decode s.cfg w = .ok (.jumpIfFalse m1 m2) ∧ c = 0)) →
    readOperand s (s.pc + 1) m1 = .ok c → readOperand s (s.pc + 2) m2 = .ok x → ¬(0 ≤ x ∧ x < (s.mem.len : Int)) →
    ∃ t, step s = .next t ∧ t.rs = .running ∧ t.pc = x ∧ t.mem = s.mem ∧ t.iq = s.iq ∧ t.oq = s.oq ∧
      step t = .next (t.raise (.outOfBounds x))

/-- 70_reset_and_hazards R147: at address L - 2 under JUMP_EVAL = Lazy an untaken jump completes and a taken one faults on
slot L; under Eager both fault. Decisions D6 and D7 are the spec's own choices. -/
def Obligations.JumpWhoseTargetSlotIsPastTheEnd : Prop :=
  ∀ (s : State) (m1 m2 : Mode) (c : Int), s.pc + 2 = (s.mem.len : Int) → readOperand s (s.pc + 1) m1 = .ok c →
    (c = 0 → s.cfg.jumpEval = .lazy → exec (.jumpIfTrue m1 m2) s = .next { s with pc := s.pc + 3 }) ∧
    (c ≠ 0 → exec (.jumpIfTrue m1 m2) s = .next (s.raise (.outOfBounds (s.mem.len : Int)))) ∧
    (s.cfg.jumpEval = .eager → exec (.jumpIfTrue m1 m2) s = .next (s.raise (.outOfBounds (s.mem.len : Int)))) ∧
    (c ≠ 0 → s.cfg.jumpEval = .lazy → exec (.jumpIfFalse m1 m2) s = .next { s with pc := s.pc + 3 }) ∧
    (c = 0 → exec (.jumpIfFalse m1 m2) s = .next (s.raise (.outOfBounds (s.mem.len : Int)))) ∧
    (s.cfg.jumpEval = .eager → exec (.jumpIfFalse m1 m2) s = .next (s.raise (.outOfBounds (s.mem.len : Int))))

/-- 70_reset_and_hazards R149: a taken jump to itself, a Jump-if-true on any word but 0 or a Jump-if-false on 0, changes
nothing with no step ceiling, so the run never ends: under any fuel it is out of fuel, and neither halted nor faulted. -/
def Obligations.SelfLoopNeverEnds : Prop :=
  ∀ (s : State) (w : Int) (m1 m2 : Mode) (c : Int),
    s.rs = .running → s.cfg.stepLimit = none → memRead s s.pc = .ok w → readOperand s (s.pc + 1) m1 = .ok c →
    (decode s.cfg w = .ok (.jumpIfTrue m1 m2) ∧ c ≠ 0) ∨ (decode s.cfg w = .ok (.jumpIfFalse m1 m2) ∧ c = 0) →
    readOperand s (s.pc + 2) m2 = .ok s.pc →
    step s = .next s ∧ ∀ n, runFor n s = .outOfFuel s

/-! ## The step -/

/-- 40_execution_cycle R83, R88 and R89: when the word at pc decodes to an instruction, and the ceiling is not reached, the
step is that instruction's `exec` in that state; a next state that is not faulted is counted where SC exists, and the step
does nothing else around it. -/
def Obligations.StepRunsTheDecodedInstruction : Prop :=
  ∀ (s : State) (w : Int) (i : Instr),
    s.rs = .running → s.cfg.stepLimit ≠ some s.sc → memRead s s.pc = .ok w → decode s.cfg w = .ok i →
    ∃ t, exec i s = .next t ∧
      step s = .next (if t.rs.isFaulted = true then t
        else { t with sc := if t.cfg.stepLimit.isSome = true then t.sc + 1 else t.sc })

/-- 40_execution_cycle R76, R77, R79 and R81; 60_exceptions R124 items 1 to 5: a step that reaches no instruction raises, in
this order, the step ceiling, the fetch's OutOfBounds(pc), and the decoder's fault. Decisions D10, D11 and D17 are the
spec's own choices. -/
def Obligations.FaultsBeforeDispatch : Prop :=
  ∀ s : State, s.rs = .running →
    (s.cfg.stepLimit = some s.sc → step s = .next (s.raise .stepLimitExceeded)) ∧
    (s.cfg.stepLimit ≠ some s.sc → ¬(0 ≤ s.pc ∧ s.pc < (s.mem.len : Int)) →
      step s = .next (s.raise (.outOfBounds s.pc))) ∧
    (s.cfg.stepLimit ≠ some s.sc → ∀ w f, memRead s s.pc = .ok w → decode s.cfg w = .error f →
      step s = .next (s.raise f))

/-- 40_execution_cycle R75: the engine has a step exactly while RS = Running; in a terminal state it has none. -/
def Obligations.StepsExactlyWhileRunning : Prop :=
  ∀ s : State, (∃ t, step s = .next t) ↔ s.rs = .running

/-- 20_memory R47, 60_exceptions R120 and R126: faults are precise: a step that ends in Faulted changes RS and nothing else,
so M, pc, IQ, OQ and SC are as before it. Decisions D12 and D24 are the spec's own choices. -/
def Obligations.FaultsArePrecise : Prop :=
  ∀ (s t : State) (f : FaultRecord), step s = .next t → t.rs = .faulted f → t = { s with rs := .faulted f }

/-- 60_exceptions R121, R122, R123 and 10_state R25: every fault has its cause, with the payload the table gives: an
illegal opcode; a digit that MODE_CHECK has checked (40_execution_cycle R80), of a legal opcode but under Always; an address
outside [0, L) that the fetch or an operand of the decoded instruction checks, never an immediate operand or a jump's
target; Input with IQ empty; an exact sum or product that is not a word; Output with OQ full; the step ceiling reached.
Decisions D2, D4, D5, D7, D8, D10, D11, D15, D17, D28 and, in the ranges of codes and digits, D3 (log entry 9) are the
spec's own choices. -/
def Obligations.FaultsOnlyForTheirCause : Prop :=
  ∀ (s t : State) (f : FaultRecord), step s = .next t → t.rs = .faulted f →
    match f with
    | .invalidOpcode code => ∃ w, memRead s s.pc = .ok w ∧ code = trem w 100 ∧ -99 ≤ code ∧ code ≤ 99 ∧
        ¬((1 ≤ code ∧ code ≤ 8) ∨ code = 99)
    | .invalidParameterMode digit =>
        (∃ w, memRead s s.pc = .ok w ∧ digit ∈ checkedDigits s.cfg (trem w 100) (dig w 2) (dig w 3) ∧
          (s.cfg.modeCheck ≠ .always → (1 ≤ trem w 100 ∧ trem w 100 ≤ 8) ∨ trem w 100 = 99)) ∧
        ((2 ≤ digit ∧ digit ≤ 9) ∨ (-9 ≤ digit ∧ digit ≤ -1 ∧ s.cfg.modeCheck = .always))
    | .outOfBounds a => ¬(0 ≤ a ∧ a < (s.mem.len : Int)) ∧
        (a = s.pc ∨ ∃ w i, memRead s s.pc = .ok w ∧ decode s.cfg w = .ok i ∧ s.operandChecks i a)
    | .inputExhausted => s.iq = [] ∧ ∃ w, memRead s s.pc = .ok w ∧ decode s.cfg w = .ok .input
    | .arithmeticOverflow => s.cfg.overflowPolicy = .fault ∧
        ∃ w m1 m2 a b, memRead s s.pc = .ok w ∧
          readOperand s (s.pc + 1) m1 = .ok a ∧ readOperand s (s.pc + 2) m2 = .ok b ∧
          ((decode s.cfg w = .ok (.add m1 m2) ∧ ¬(wmin s.cfg.wordBits ≤ a + b ∧ a + b ≤ wmax s.cfg.wordBits)) ∨
           (decode s.cfg w = .ok (.multiply m1 m2) ∧ ¬(wmin s.cfg.wordBits ≤ a * b ∧ a * b ≤ wmax s.cfg.wordBits)))
    | .outputOverflow => s.cfg.outDepth = some s.oq.length ∧
        ∃ w m1, memRead s s.pc = .ok w ∧ decode s.cfg w = .ok (.output m1)
    | .stepLimitExceeded => s.cfg.stepLimit = some s.sc

/-- 40_execution_cycle R88 and 10_state R29: SC rises by one in a step that does not fault, a Halt step too, where
STEP_LIMIT is a number; otherwise it is unchanged. Decision D17 is the spec's own choice. -/
def Obligations.StepCounterCountsCompletedSteps : Prop :=
  ∀ (s t : State), step s = .next t →
    t.sc = if t.rs.isFaulted = false ∧ s.cfg.stepLimit ≠ none then s.sc + 1 else s.sc

/-- 40_execution_cycle R87, 43_control R112: a completed instruction that is no jump and no halt moves pc by its length; a
jump moves it to its target or by 3; Halt and a fault leave it. Decision D12 is the spec's own choice. -/
def Obligations.PcMovesOnceAtTheEnd : Prop :=
  ∀ (i : Instr) (s t : State), s.rs = .running → exec i s = .next t →
    (t.rs.isFaulted = true → t.pc = s.pc) ∧
    (t.rs.isFaulted = false →
      (∀ m1 m2, i = .jumpIfTrue m1 m2 ∨ i = .jumpIfFalse m1 m2 →
        t.pc = s.pc + 3 ∨ readOperand s (s.pc + 2) m2 = .ok t.pc) ∧
      (i = .halt → t.pc = s.pc) ∧
      (i.format ≠ .f2s → i.format ≠ .f0 → t.pc = s.pc + (i.length : Int)))

/-- 20_memory R51: the next fetch sees a write. An Add that stores the word of an instruction j just behind itself is
followed by j, whatever stood there before. -/
def Obligations.NextFetchSeesTheWrite : Prop :=
  ∀ (s : State) (w : Int) (m1 m2 : Mode) (a b : Int) (j : Instr),
    s.rs = .running → s.cfg.stepLimit = none → memRead s s.pc = .ok w → decode s.cfg w = .ok (.add m1 m2) →
    readOperand s (s.pc + 1) m1 = .ok a → readOperand s (s.pc + 2) m2 = .ok b →
    writeAddress s (s.pc + 3) = .ok (s.pc + 4) → a + b = encode j → isWord s.cfg.wordBits (a + b) →
    ∃ t u, step s = .next t ∧ t.pc = s.pc + 4 ∧ exec j t = .next u ∧ step t = .next u

/-! ## Whole-machine rules -/

/-- The invariant of the machine (`State.inv`: 00_scope R6, R8; 10_state R21, R22, R23, R27, R28, R29) is kept by every
step, from every state that meets it: the memory stays canonical and within MEM_MAX, every cell, pc and both FIFOs hold
words, OQ stays within OUT_DEPTH and SC within STEP_LIMIT. -/
def Obligations.EveryStepKeepsTheInvariant : Prop :=
  ∀ s t : State, s.inv → step s = .next t → t.inv

/-- The invariant holds at State.reset, the load of the empty image at the model's default parameters: a statement about
the model's own choices (log entries 2 and 3). -/
def Obligations.InvariantHoldsAtReset : Prop :=
  State.reset.inv

/-- 10_state R32: an accepted load establishes the invariant, for every legal setting of the parameters. -/
def Obligations.AcceptedLoadEstablishesTheInvariant : Prop :=
  ∀ (c : Config) (image inputs : List Int) (s : State), c.wf → loadImage c image inputs = some s → s.inv

/-- 10_state R21, R27 and R28, over every run: the parameters and L never change, IQ is consumed from its front only, OQ
grows at its back only, and the invariant holds all along. -/
def Obligations.EveryReachableStateKeepsItsHistory : Prop :=
  ∀ s t : State, s.inv → Reaches s t →
    t.inv ∧ t.cfg = s.cfg ∧ t.mem.len = s.mem.len ∧ (∃ used, s.iq = used ++ t.iq) ∧ ∃ more, t.oq = s.oq ++ more

/-- 42_io R102: a step takes at most the front word of IQ, by a successful Input alone, and adds at most one word at the
back of OQ, by a successful Output alone. -/
def Obligations.FifosMoveInProgramOrder : Prop :=
  ∀ (s t : State), step s = .next t →
    ((t.iq = s.iq ∧ (t.rs.isFaulted = false → fetchDecode s ≠ .ok .input)) ∨
      (fetchDecode s = .ok .input ∧ t.rs.isFaulted = false ∧ ∃ v, s.iq = v :: t.iq)) ∧
    ((t.oq = s.oq ∧ (t.rs.isFaulted = false → ∀ m, fetchDecode s ≠ .ok (.output m))) ∨
      ((∃ m, fetchDecode s = .ok (.output m)) ∧ t.rs.isFaulted = false ∧ ∃ v, t.oq = s.oq ++ [v]))

/-- 10_state R22 and R31: a step changes at most one cell of memory, and none at all unless it completes an Add, a
Multiply, an Input, a Less-than or an Equals, whose destination that cell is. -/
def Obligations.OnlyDestinationsAreWritten : Prop :=
  ∀ (s t : State) (a : Int), step s = .next t → memRead t a ≠ memRead s a →
    t.rs.isFaulted = false ∧
    ∃ i, fetchDecode s = .ok i ∧
      ((i.format = .f3s ∧ writeAddress s (s.pc + 3) = .ok a) ∨ (i.format = .fd ∧ writeAddress s (s.pc + 1) = .ok a))

/-- 10_state R28: no instruction reads OQ. Two states that differ in OQ alone step alike with no bound on OQ: the same
words are appended, and everything else is the same. -/
def Obligations.NoInstructionReadsTheOutputFifo : Prop :=
  ∀ (s t : State) (o : List Int), s.cfg.outDepth = none → step s = .next t →
    ∃ more, t.oq = s.oq ++ more ∧ step { s with oq := o } = .next { t with oq := o ++ more }

/-! ## The host interface -/

/-- 10_state R32 and R33: an accepted load sets every piece of state: the cells to the image, L to its length, IQ to the
inputs, OQ empty, pc 0, RS Running, STATUS 0, 0, 0 and SC 0; any other load is refused. Decisions D14, D17, D18 and D27 are
the spec's own choices. -/
def Obligations.LoadSetsEveryPieceOfState : Prop :=
  ∀ (c : Config) (image inputs : List Int),
    (loadable c image inputs → ∃ s, loadImage c image inputs = some s ∧
      (∀ (a : Nat) (h : a < image.length), memRead s a = .ok image[a]) ∧ s.mem.len = image.length ∧ s.cfg = c ∧
      s.iq = inputs ∧ s.oq = [] ∧ s.pc = 0 ∧ s.rs = .running ∧ s.sc = 0 ∧
      s.status = { state := 0, cause := 0, info := 0 }) ∧
    (image.length > c.memMax ∨ (∃ v ∈ image, ¬isWord c.wordBits v) ∨ (∃ v ∈ inputs, ¬isWord c.wordBits v) →
      loadImage c image inputs = none)

/-- 60_exceptions R131: the final memory is M[0] to M[L-1], L words in address order; of a freshly loaded memory it is the
image. -/
def Obligations.FinalMemoryListsTheCells : Prop :=
  (∀ image : List Int, (Memory.ofImage image).toImage = image) ∧
  ∀ s : State, s.mem.toImage.length = s.mem.len ∧
    ∀ (a : Nat) (h : a < s.mem.toImage.length), memRead s a = .ok s.mem.toImage[a]

/-- 10_state R26 and 60_exceptions R121: the STATUS view of every run state. The numbers are the spec's own choice (D18). -/
def Obligations.StatusViewOfTheRunState : Prop :=
  ∀ s : State,
    (s.rs = .running → s.status = { state := 0, cause := 0, info := 0 }) ∧
    (s.rs = .halted → s.status = { state := 1, cause := 0, info := 0 }) ∧
    (∀ x, s.rs = .faulted (.invalidOpcode x) → s.status = { state := 2, cause := 1, info := x }) ∧
    (∀ x, s.rs = .faulted (.invalidParameterMode x) → s.status = { state := 2, cause := 2, info := x }) ∧
    (∀ x, s.rs = .faulted (.outOfBounds x) → s.status = { state := 2, cause := 3, info := x }) ∧
    (s.rs = .faulted .inputExhausted → s.status = { state := 2, cause := 4, info := 0 }) ∧
    (s.rs = .faulted .arithmeticOverflow → s.status = { state := 2, cause := 5, info := 0 }) ∧
    (s.rs = .faulted .outputOverflow → s.status = { state := 2, cause := 6, info := 0 }) ∧
    (s.rs = .faulted .stepLimitExceeded → s.status = { state := 2, cause := 7, info := 0 })

/-- 60_exceptions R131 and R132: what the host receives: nothing while Running, the status, OQ and the memory on Halted, the
status and the fault alone on Faulted; and a load only outside Running. Decisions D19 and D20 are the spec's own choices. -/
def Obligations.HostSeesResultsOnlyAtTheEnd : Prop :=
  ∀ s : State,
    (s.rs = .running → s.hostStatus = none ∧ s.hostOutputs = none ∧ s.hostFinalMemory = none ∧ s.hostResult = none ∧
      ∀ image inputs, s.hostLoad image inputs = none) ∧
    (s.rs = .halted → s.hostStatus = some s.status ∧ s.hostOutputs = some s.oq ∧
      s.hostFinalMemory = some s.mem.toImage ∧ s.hostResult = some (.ok (s.oq, s.mem.toImage)) ∧
      ∀ image inputs, s.hostLoad image inputs = loadImage s.cfg image inputs) ∧
    (∀ f, s.rs = .faulted f → s.hostStatus = some s.status ∧ s.hostOutputs = none ∧ s.hostFinalMemory = none ∧
      s.hostResult = some (.error f) ∧ ∀ image inputs, s.hostLoad image inputs = loadImage s.cfg image inputs)

/-- State.reset is the load of the empty image with no inputs at the model's default parameters, and with no valid address
its first step faults OutOfBounds(0) (70_reset_and_hazards R142): a statement about the model's own choices (log entries 2
and 3). -/
def Obligations.ResetIsTheEmptyLoad : Prop :=
  loadImage Config.default [] [] = some State.reset ∧
  step State.reset = .next (State.reset.raise (.outOfBounds 0))

/-- 00_scope R7 and R9 to R13: at State.reset each parameter with a default has it, and the two OPEN ones, for which the
model chooses 64 and WMAX - 3 (log entry 2), respect R8. -/
def Obligations.ResetCarriesTheDefaultParameters : Prop :=
  State.reset.cfg.overflowPolicy = .fault ∧ State.reset.cfg.modeCheck = .firstTwoParams ∧
  State.reset.cfg.jumpEval = .lazy ∧ State.reset.cfg.outputMode = .honour ∧ State.reset.cfg.outDepth = none ∧
  State.reset.cfg.stepLimit = none ∧ State.reset.cfg.wf

/-- 70_reset_and_hazards R142 and 40_execution_cycle R77: an instruction placed for the next fetch (the model's
`State.withFetchWord`, log entry 3) is the one the next step fetches and decodes, from every state. -/
def Obligations.PlacedInstructionIsTheNextOneFetched : Prop :=
  ∀ (s : State) (nbits w : Nat) (i : Instr),
    decode s.cfg (wordOfBits s.cfg.wordBits (w % 2 ^ nbits)) = .ok i →
    (s.withFetchWord nbits w).rs = .running ∧ fetchDecode (s.withFetchWord nbits w) = .ok i
end

