-- ==== Sys2Proof/Laws/Decode.lean ====
section
/-! SUPPORT. What each part of the decoder answers. -/

namespace Sys2Proof

open Machine (FaultRecord)

/-- The remainder that truncating division leaves is the library's. -/
theorem trem_eq_tmod (a b : Int) : trem a b = Int.tmod a b := by
  unfold trem tdiv
  have := Int.mul_tdiv_add_tmod a b
  omega

/-- On a word that is not negative the decimal digits are those of floor division (00_scope R15). -/
theorem dig_of_nonneg {w : Int} (hw : 0 ≤ w) (k : Nat) : dig w k = w / 10 ^ k % 10 := by
  unfold dig
  rw [trem_eq_tmod, tdiv, Int.tdiv_eq_ediv_of_nonneg hw, Int.tmod_eq_emod_of_nonneg]
  exact Int.ediv_nonneg hw (by positivity)

/-- The opcode of a word that is not negative. -/
theorem opcodeOf_of_nonneg {w : Int} (hw : 0 ≤ w) : opcodeOf w = w % 100 := by
  unfold opcodeOf
  rw [trem_eq_tmod, Int.tmod_eq_emod_of_nonneg hw]

/-- The digits and the opcode of a negative word are those of its absolute value, negated. -/
theorem dig_neg (w : Int) (k : Nat) : dig (-w) k = -dig w k := by
  unfold dig
  rw [trem_eq_tmod, trem_eq_tmod, tdiv, tdiv, Int.neg_tdiv, Int.neg_tmod]

theorem opcodeOf_neg (w : Int) : opcodeOf (-w) = -opcodeOf w := by
  unfold opcodeOf
  rw [trem_eq_tmod, trem_eq_tmod, Int.neg_tmod]

theorem checkDigits_eq_ok_iff (ds : List Int) : checkDigits ds = .ok () ↔ ∀ d ∈ ds, d = 0 ∨ d = 1 := by
  induction ds with
  | nil => simp [checkDigits]
  | cons d ds ih =>
    by_cases h : d = 0 ∨ d = 1
    · simp [checkDigits, ih, h]
    · simp [checkDigits, h]

/-- A refused digit is one of the checked digits, and not 0 or 1. -/
theorem checkDigits_error {ds : List Int} {f : FaultRecord} (h : checkDigits ds = .error f) :
    ∃ d ∈ ds, ¬(d = 0 ∨ d = 1) ∧ f = .invalidParameterMode d := by
  induction ds with
  | nil => simp [checkDigits] at h
  | cons d ds ih =>
    by_cases hd : d = 0 ∨ d = 1
    · rw [checkDigits, if_pos hd] at h
      obtain ⟨e, he, hne, rfl⟩ := ih h
      exact ⟨e, List.mem_cons_of_mem _ he, hne, rfl⟩
    · rw [checkDigits, if_neg hd] at h
      exact ⟨d, List.mem_cons_self, hd, (Except.error.inj h).symm⟩

/-- The opcode map in both directions (30_encoding R62). -/
theorem instrOf_eq_some_iff {op : Int} {m1 m2 : Mode} {i : Instr} :
    instrOf op m1 m2 = some i ↔
      (op = 1 ∧ i = .add m1 m2) ∨ (op = 2 ∧ i = .multiply m1 m2) ∨ (op = 3 ∧ i = .input) ∨
      (op = 4 ∧ i = .output m1) ∨ (op = 5 ∧ i = .jumpIfTrue m1 m2) ∨ (op = 6 ∧ i = .jumpIfFalse m1 m2) ∨
      (op = 7 ∧ i = .lessThan m1 m2) ∨ (op = 8 ∧ i = .equals m1 m2) ∨ (op = 99 ∧ i = .halt) := by
  unfold instrOf
  split_ifs <;> simp_all [eq_comm]

/-- The illegal opcodes (30_encoding R63). -/
theorem instrOf_eq_none_iff {op : Int} {m1 m2 : Mode} :
    instrOf op m1 m2 = none ↔ ¬((1 ≤ op ∧ op ≤ 8) ∨ op = 99) := by
  unfold instrOf
  split_ifs <;> simp_all
  omega

theorem selectInstr_eq_ok_iff {op d1 d2 : Int} {i : Instr} :
    selectInstr op d1 d2 = .ok i ↔ instrOf op (modeOfDigit d1) (modeOfDigit d2) = some i := by
  unfold selectInstr; split <;> simp_all

theorem selectInstr_eq_error_iff {op d1 d2 : Int} {f : FaultRecord} :
    selectInstr op d1 d2 = .error f ↔
      instrOf op (modeOfDigit d1) (modeOfDigit d2) = none ∧ f = .invalidOpcode op := by
  unfold selectInstr
  cases instrOf op (modeOfDigit d1) (modeOfDigit d2) <;> simp [eq_comm]

/-- A word is legal exactly when its opcode is in the map and its checked digits are 0 or 1 (30_encoding R66). -/
theorem decode_eq_ok_iff {c : Config} {w : Int} {i : Instr} :
    decode c w = .ok i ↔
      instrOf (opcodeOf w) (modeOfDigit (dig w 2)) (modeOfDigit (dig w 3)) = some i ∧
        ∀ d ∈ checkedDigits c (opcodeOf w) (dig w 2) (dig w 3), d = 0 ∨ d = 1 := by
  rw [← checkDigits_eq_ok_iff, ← selectInstr_eq_ok_iff]
  unfold decode
  split
  · cases h : checkDigits (checkedDigits c (opcodeOf w) (dig w 2) (dig w 3)) <;> simp [h, bind, Except.bind]
  · cases h : selectInstr (opcodeOf w) (dig w 2) (dig w 3) <;>
      cases h' : checkDigits (checkedDigits c (opcodeOf w) (dig w 2) (dig w 3)) <;>
      simp [h, h', bind, Except.bind, pure, Except.pure]

/-- Everything an illegal word can report, in the order of 60_exceptions R124. -/
theorem decode_eq_error_iff {c : Config} {w : Int} {f : FaultRecord} :
    decode c w = .error f ↔
      if c.modeCheck = .always then
        checkDigits (checkedDigits c (opcodeOf w) (dig w 2) (dig w 3)) = .error f ∨
          (checkDigits (checkedDigits c (opcodeOf w) (dig w 2) (dig w 3)) = .ok () ∧
            selectInstr (opcodeOf w) (dig w 2) (dig w 3) = .error f)
      else
        selectInstr (opcodeOf w) (dig w 2) (dig w 3) = .error f ∨
          ((∃ i, selectInstr (opcodeOf w) (dig w 2) (dig w 3) = .ok i) ∧
            checkDigits (checkedDigits c (opcodeOf w) (dig w 2) (dig w 3)) = .error f) := by
  unfold decode
  split
  · cases h : checkDigits (checkedDigits c (opcodeOf w) (dig w 2) (dig w 3)) <;> simp [h, bind, Except.bind]
  · cases h : selectInstr (opcodeOf w) (dig w 2) (dig w 3) <;>
      cases h' : checkDigits (checkedDigits c (opcodeOf w) (dig w 2) (dig w 3)) <;>
      simp [h, h', bind, Except.bind, pure, Except.pure]

/-- The decoder reads the opcode and digits 2 and 3, and nothing else of the word (40_execution_cycle R78). -/
theorem decode_congr {c : Config} {w w' : Int} (ho : opcodeOf w = opcodeOf w') (h1 : dig w 2 = dig w' 2)
    (h2 : dig w 3 = dig w' 3) : decode c w = decode c w' := by
  unfold decode; rw [ho, h1, h2]

/-- A mode's digit is a legal digit, and stands for that mode (30_encoding R58). -/
@[simp] theorem modeOfDigit_digit (m : Mode) : modeOfDigit m.digit = m := by cases m <;> rfl

theorem Mode.digit_binary (m : Mode) : m.digit = 0 ∨ m.digit = 1 := by cases m <;> simp [Mode.digit]

end Sys2Proof
end

