-- ==== Sys2Proof/Laws/State.lean ====
section
/-! SUPPORT. One lemma per field for each update of the state, so that no proof unfolds a record update. -/

namespace Sys2Proof.Machine

@[simp] theorem State.jumpTo_cfg (s : State) (t : Int) : (s.jumpTo t).cfg = s.cfg := rfl
@[simp] theorem State.jumpTo_mem (s : State) (t : Int) : (s.jumpTo t).mem = s.mem := rfl
@[simp] theorem State.jumpTo_pc (s : State) (t : Int) : (s.jumpTo t).pc = t := rfl
@[simp] theorem State.jumpTo_rs (s : State) (t : Int) : (s.jumpTo t).rs = s.rs := rfl
@[simp] theorem State.jumpTo_iq (s : State) (t : Int) : (s.jumpTo t).iq = s.iq := rfl
@[simp] theorem State.jumpTo_oq (s : State) (t : Int) : (s.jumpTo t).oq = s.oq := rfl
@[simp] theorem State.jumpTo_sc (s : State) (t : Int) : (s.jumpTo t).sc = s.sc := rfl

@[simp] theorem State.advance_cfg (s : State) (n : Int) : (s.advance n).cfg = s.cfg := rfl
@[simp] theorem State.advance_mem (s : State) (n : Int) : (s.advance n).mem = s.mem := rfl
@[simp] theorem State.advance_pc (s : State) (n : Int) : (s.advance n).pc = s.pc + n := rfl
@[simp] theorem State.advance_rs (s : State) (n : Int) : (s.advance n).rs = s.rs := rfl
@[simp] theorem State.advance_iq (s : State) (n : Int) : (s.advance n).iq = s.iq := rfl
@[simp] theorem State.advance_oq (s : State) (n : Int) : (s.advance n).oq = s.oq := rfl
@[simp] theorem State.advance_sc (s : State) (n : Int) : (s.advance n).sc = s.sc := rfl

@[simp] theorem State.halted_cfg (s : State) : (s.halted).cfg = s.cfg := rfl
@[simp] theorem State.halted_mem (s : State) : (s.halted).mem = s.mem := rfl
@[simp] theorem State.halted_pc (s : State) : (s.halted).pc = s.pc := rfl
@[simp] theorem State.halted_rs (s : State) : (s.halted).rs = .halted := rfl
@[simp] theorem State.halted_iq (s : State) : (s.halted).iq = s.iq := rfl
@[simp] theorem State.halted_oq (s : State) : (s.halted).oq = s.oq := rfl
@[simp] theorem State.halted_sc (s : State) : (s.halted).sc = s.sc := rfl

@[simp] theorem State.raise_cfg (s : State) (f : FaultRecord) : (s.raise f).cfg = s.cfg := rfl
@[simp] theorem State.raise_mem (s : State) (f : FaultRecord) : (s.raise f).mem = s.mem := rfl
@[simp] theorem State.raise_pc (s : State) (f : FaultRecord) : (s.raise f).pc = s.pc := rfl
@[simp] theorem State.raise_rs (s : State) (f : FaultRecord) : (s.raise f).rs = .faulted f := rfl
@[simp] theorem State.raise_iq (s : State) (f : FaultRecord) : (s.raise f).iq = s.iq := rfl
@[simp] theorem State.raise_oq (s : State) (f : FaultRecord) : (s.raise f).oq = s.oq := rfl
@[simp] theorem State.raise_sc (s : State) (f : FaultRecord) : (s.raise f).sc = s.sc := rfl

@[simp] theorem State.countStep_cfg (s : State) : s.countStep.cfg = s.cfg := by
  unfold State.countStep; split <;> rfl
@[simp] theorem State.countStep_mem (s : State) : s.countStep.mem = s.mem := by
  unfold State.countStep; split <;> rfl
@[simp] theorem State.countStep_pc (s : State) : s.countStep.pc = s.pc := by
  unfold State.countStep; split <;> rfl
@[simp] theorem State.countStep_rs (s : State) : s.countStep.rs = s.rs := by
  unfold State.countStep; split <;> rfl
@[simp] theorem State.countStep_iq (s : State) : s.countStep.iq = s.iq := by
  unfold State.countStep; split <;> rfl
@[simp] theorem State.countStep_oq (s : State) : s.countStep.oq = s.oq := by
  unfold State.countStep; split <;> rfl

/-- SC rises by one exactly where it exists (40_execution_cycle R88). -/
theorem State.countStep_sc (s : State) :
    s.countStep.sc = if s.cfg.stepLimit.isSome then s.sc + 1 else s.sc := by
  unfold State.countStep; split <;> simp_all

@[simp] theorem Memory.set_len (m : Memory) (a : Nat) (v : Int) : (m.set a v).len = m.len := rfl

end Sys2Proof.Machine
end

