-- ==== Sys2Proof/Laws/Memory.lean ====
section
/-! SUPPORT. The memory laws: a read after a write, the canonical form, and the words a memory holds. -/

namespace Sys2Proof.Machine

/-- A read after an insertion. -/
theorem lookup_insertCell (l : List (Nat × Int)) (a c : Nat) (v : Int) :
    lookupCell (insertCell l a v) c = if c = a then v else lookupCell l c := by
  induction l with
  | nil => simp [insertCell, lookupCell]
  | cons x rest ih =>
    obtain ⟨b, u⟩ := x
    simp only [insertCell]
    split
    · simp [lookupCell]
    · split
      · subst_vars
        by_cases h : c = b <;> simp [lookupCell, h]
      · simp only [lookupCell, ih]
        by_cases h : c = b
        · subst h; simp [show ¬c = a by omega]
        · simp [h]

/-- A read after an erasure. -/
theorem lookup_eraseCell (l : List (Nat × Int)) (a c : Nat) :
    lookupCell (eraseCell l a) c = if c = a then 0 else lookupCell l c := by
  induction l with
  | nil => simp [eraseCell, lookupCell]
  | cons x rest ih =>
    obtain ⟨b, u⟩ := x
    simp only [eraseCell]
    split
    · subst_vars
      rw [ih]
      by_cases h : c = b <;> simp [lookupCell, h]
    · simp only [lookupCell, ih]
      by_cases h : c = b
      · subst h; simp [show ¬c = a by omega]
      · simp [h]

/-- A read after a write: the written word at its address, and every other address as before. -/
theorem Memory.get_set (m : Memory) (a c : Nat) (v : Int) :
    (m.set a v).get c = if c = a then v else m.get c := by
  unfold Memory.set Memory.get setCell
  by_cases hv : v = 0
  · simp [hv, lookup_eraseCell]
  · simp [hv, lookup_insertCell]

@[simp] theorem Memory.get_set_same (m : Memory) (a : Nat) (v : Int) : (m.set a v).get a = v := by
  simp [Memory.get_set]

theorem Memory.get_set_other (m : Memory) {a c : Nat} (v : Int) (h : c ≠ a) : (m.set a v).get c = m.get c := by
  simp [Memory.get_set, h]

@[simp] theorem Memory.set_inBounds (m : Memory) (a : Nat) (v : Int) (b : Int) :
    (m.set a v).inBounds b ↔ m.inBounds b := Iff.rfl

/-! ### The canonical form -/

theorem cellsWf_mono {lo lo' hi : Nat} (l : List (Nat × Int)) (h : lo' ≤ lo) :
    cellsWf lo hi l = true → cellsWf lo' hi l = true := by
  cases l with
  | nil => simp [cellsWf]
  | cons x rest =>
    simp only [cellsWf, Bool.and_eq_true, decide_eq_true_eq]
    rintro ⟨⟨h1, h2, h3⟩, h4⟩
    exact ⟨⟨by omega, h2, h3⟩, h4⟩

theorem cellsWf_insert {lo hi a : Nat} (l : List (Nat × Int)) {v : Int} (hv : v ≠ 0) (ha : a < hi) (hlo : lo ≤ a) :
    cellsWf lo hi l = true → cellsWf lo hi (insertCell l a v) = true := by
  induction l generalizing lo with
  | nil => simp [cellsWf, insertCell, *]
  | cons x rest ih =>
    obtain ⟨b, u⟩ := x
    simp only [insertCell]
    intro h
    split
    · simp only [cellsWf, Bool.and_eq_true, decide_eq_true_eq] at h ⊢
      exact ⟨⟨hlo, ha, hv⟩, ⟨by omega, h.1.2⟩, h.2⟩
    · simp only [cellsWf, Bool.and_eq_true, decide_eq_true_eq] at h
      split
      · subst_vars
        simp only [cellsWf, Bool.and_eq_true, decide_eq_true_eq]
        exact ⟨⟨hlo, ha, hv⟩, h.2⟩
      · simp only [cellsWf, Bool.and_eq_true, decide_eq_true_eq]
        exact ⟨h.1, ih (by omega) h.2⟩

theorem cellsWf_erase {lo hi a : Nat} (l : List (Nat × Int)) :
    cellsWf lo hi l = true → cellsWf lo hi (eraseCell l a) = true := by
  induction l generalizing lo with
  | nil => simp [cellsWf, eraseCell]
  | cons x rest ih =>
    obtain ⟨b, u⟩ := x
    simp only [eraseCell, cellsWf, Bool.and_eq_true, decide_eq_true_eq]
    intro h
    split
    · exact cellsWf_mono _ (by omega) (ih h.2)
    · simp only [cellsWf, Bool.and_eq_true, decide_eq_true_eq]
      exact ⟨h.1, ih h.2⟩

/-- A write below L keeps the canonical form. -/
theorem Memory.wf_set {m : Memory} {a : Nat} (v : Int) (ha : a < m.len) (h : m.wf = true) :
    (m.set a v).wf = true := by
  unfold Memory.wf Memory.set setCell at *
  by_cases hv : v = 0
  · simpa [hv] using cellsWf_erase _ h
  · simpa [hv] using cellsWf_insert _ hv ha (Nat.zero_le _) h

theorem cellsWf_cellsFrom (image : List Int) (k hi : Nat) (h : k + image.length ≤ hi) :
    cellsWf k hi (cellsFrom k image) = true := by
  induction image generalizing k with
  | nil => simp [cellsFrom, cellsWf]
  | cons v vs ih =>
    simp only [List.length_cons] at h
    simp only [cellsFrom]
    split
    · exact cellsWf_mono _ (by omega) (ih (k + 1) (by omega))
    · simp only [cellsWf, Bool.and_eq_true, decide_eq_true_eq]
      exact ⟨⟨le_refl _, by omega, by assumption⟩, ih (k + 1) (by omega)⟩

/-- The load makes a memory in canonical form. -/
theorem Memory.wf_ofImage (image : List Int) : (Memory.ofImage image).wf = true :=
  cellsWf_cellsFrom image 0 image.length (by simp)

/-- State.reset's memory has the canonical form. -/
theorem State.reset_mem_wf : State.reset.mem.wf = true := rfl

/-- Placing words for a fetch keeps the canonical form. -/
theorem placeWords_wf (ws : List Int) (m : Memory) (a : Nat) (h : m.wf = true) :
    (placeWords m a ws).wf = true := by
  induction ws generalizing m a with
  | nil => exact h
  | cons v vs ih =>
    refine ih _ _ (Memory.wf_set v (by simp) ?_)
    have grow : ∀ (l : List (Nat × Int)) (lo hi hi' : Nat), hi ≤ hi' → cellsWf lo hi l = true →
        cellsWf lo hi' l = true := by
      intro l
      induction l with
      | nil => simp [cellsWf]
      | cons x rest ihl =>
        intro lo hi hi' hle hx
        simp only [cellsWf, Bool.and_eq_true, decide_eq_true_eq] at hx ⊢
        exact ⟨⟨hx.1.1, by omega, hx.1.2.2⟩, ihl _ _ _ hle hx.2⟩
    exact grow _ _ _ _ (Nat.le_max_left _ _) h

/-- Placed words do not touch the addresses below them. -/
theorem placeWords_get_below (ws : List Int) (m : Memory) {a b : Nat} (h : b < a) :
    (placeWords m a ws).get b = m.get b := by
  induction ws generalizing m a with
  | nil => rfl
  | cons v vs ih =>
    rw [placeWords, ih _ (by omega), Memory.get_set_other _ _ (by omega)]
    rfl

/-- Placing words never makes the memory shorter. -/
theorem placeWords_len_le (ws : List Int) (m : Memory) (a : Nat) : m.len ≤ (placeWords m a ws).len := by
  induction ws generalizing m a with
  | nil => exact le_rfl
  | cons v vs ih => exact le_trans (Nat.le_max_left m.len (a + 1)) (ih (Memory.set { m with len := max m.len (a + 1) } a v) (a + 1))

/-- The first placed word stands at its address, inside the memory. -/
theorem placeWords_first (v : Int) (vs : List Int) (m : Memory) (a : Nat) :
    a < (placeWords m a (v :: vs)).len ∧ (placeWords m a (v :: vs)).get a = v := by
  constructor
  · have := placeWords_len_le vs (Memory.set { m with len := max m.len (a + 1) } a v) (a + 1)
    simp only [placeWords, Memory.set_len] at this ⊢
    omega
  · rw [placeWords, placeWords_get_below _ _ (by omega), Memory.get_set_same]

/-! ### The words a memory holds -/

theorem mem_insertCell {l : List (Nat × Int)} {a : Nat} {v : Int} {c : Nat × Int}
    (h : c ∈ insertCell l a v) : c = (a, v) ∨ c ∈ l := by
  induction l with
  | nil => simpa [insertCell] using h
  | cons x rest ih =>
    obtain ⟨b, u⟩ := x
    simp only [insertCell] at h
    split at h
    · simpa using h
    · split at h
      · rcases List.mem_cons.1 h with h | h <;> simp [h]
      · rcases List.mem_cons.1 h with h | h
        · simp [h]
        · rcases ih h with h | h <;> simp [h]

theorem mem_eraseCell {l : List (Nat × Int)} {a : Nat} {c : Nat × Int} (h : c ∈ eraseCell l a) : c ∈ l := by
  induction l with
  | nil => simp [eraseCell] at h
  | cons x rest ih =>
    obtain ⟨b, u⟩ := x
    simp only [eraseCell] at h
    split at h
    · exact List.mem_cons_of_mem _ (ih h)
    · rcases List.mem_cons.1 h with h | h
      · simp [h]
      · exact List.mem_cons_of_mem _ (ih h)

/-- A cell listed after a write is the written one or was listed before. -/
theorem Memory.mem_cells_set {m : Memory} {a : Nat} {v : Int} {c : Nat × Int} (h : c ∈ (m.set a v).cells) :
    c = (a, v) ∨ c ∈ m.cells := by
  unfold Memory.set setCell at h
  by_cases hv : v = 0
  · simp only [hv, if_true] at h; exact .inr (mem_eraseCell h)
  · simp only [hv, if_false] at h; exact mem_insertCell h

/-- A word read from a list of cells is 0 or a listed one. -/
theorem lookupCell_mem (l : List (Nat × Int)) (a : Nat) : lookupCell l a = 0 ∨ (a, lookupCell l a) ∈ l := by
  induction l with
  | nil => simp [lookupCell]
  | cons x rest ih =>
    obtain ⟨b, u⟩ := x
    simp only [lookupCell]
    split
    · subst_vars; simp
    · rcases ih with h | h
      · exact .inl h
      · exact .inr (List.mem_cons_of_mem _ h)

/-- Every cell of a loaded memory holds a word of the image. -/
theorem mem_cellsFrom {image : List Int} {k : Nat} {c : Nat × Int} (h : c ∈ cellsFrom k image) : c.2 ∈ image := by
  induction image generalizing k with
  | nil => simp [cellsFrom] at h
  | cons v vs ih =>
    simp only [cellsFrom] at h
    split at h
    · exact List.mem_cons_of_mem _ (ih h)
    · rcases List.mem_cons.1 h with h | h
      · simp [h]
      · exact List.mem_cons_of_mem _ (ih h)

end Sys2Proof.Machine
end

