-- ==== Sys2Proof/Laws/Ops.lean ====
section
/-! SUPPORT. One lemma per shared operation that says everything it can answer. -/

namespace Sys2Proof.Machine

/-! ### Sequencing of operations that can fault -/

theorem bind_eq_ok_iff {α β : Type} {x : Except FaultRecord α} {k : α → Except FaultRecord β} {b : β} :
    (x >>= k) = .ok b ↔ ∃ a, x = .ok a ∧ k a = .ok b := by
  cases x <;> simp [bind, Except.bind]

theorem bind_eq_error_iff {α β : Type} {x : Except FaultRecord α} {k : α → Except FaultRecord β} {f : FaultRecord} :
    (x >>= k) = .error f ↔ x = .error f ∨ ∃ a, x = .ok a ∧ k a = .error f := by
  cases x <;> simp [bind, Except.bind]

@[simp] theorem pure_eq_ok {α : Type} (a : α) : (pure a : Except FaultRecord α) = .ok a := rfl

@[simp] theorem throw_eq_error {α : Type} (f : FaultRecord) : (throw f : Except FaultRecord α) = .error f := rfl

/-! ### Memory accesses (00_scope R16) -/

theorem memRead_eq_ok_iff {s : State} {a : Int} {v : Int} :
    memRead s a = .ok v ↔ s.mem.inBounds a ∧ s.mem.get a.toNat = v := by
  unfold memRead
  by_cases h : s.mem.inBounds a
  · rw [if_pos h]; simp only [Except.ok.injEq, eq_true h, true_and]
  · rw [if_neg h]; simp only [reduceCtorEq, h, false_and]

theorem memRead_eq_error_iff {s : State} {a : Int} {f : FaultRecord} :
    memRead s a = .error f ↔ ¬s.mem.inBounds a ∧ f = .outOfBounds a := by
  unfold memRead
  by_cases h : s.mem.inBounds a
  · rw [if_pos h]; simp only [reduceCtorEq, eq_true h, not_true_eq_false, false_and]
  · rw [if_neg h]; simp only [Except.error.injEq, h, not_false_eq_true, true_and, eq_comm]

theorem memWrite_eq_ok_iff {s t : State} {a : Int} {v : Int} :
    memWrite s a v = .ok t ↔ s.mem.inBounds a ∧ t = { s with mem := s.mem.set a.toNat v } := by
  unfold memWrite
  by_cases h : s.mem.inBounds a
  · rw [if_pos h]; simp only [Except.ok.injEq, eq_true h, true_and, eq_comm]
  · rw [if_neg h]; simp only [reduceCtorEq, h, false_and]

theorem memWrite_eq_error_iff {s : State} {a : Int} {v : Int} {f : FaultRecord} :
    memWrite s a v = .error f ↔ ¬s.mem.inBounds a ∧ f = .outOfBounds a := by
  unfold memWrite
  by_cases h : s.mem.inBounds a
  · rw [if_pos h]; simp only [reduceCtorEq, eq_true h, not_true_eq_false, false_and]
  · rw [if_neg h]; simp only [Except.error.injEq, h, not_false_eq_true, true_and, eq_comm]

/-- A read depends on nothing but the memory. -/
theorem memRead_congr {s t : State} (h : t.mem = s.mem) (a : Int) : memRead t a = memRead s a := by
  unfold memRead; rw [h]

/-- A read at another address than the one written. -/
theorem memRead_set_other {s t : State} {d : Int} {v : Int} (hd : 0 ≤ d) (ht : t.mem = s.mem.set d.toNat v)
    {a : Int} (ha : a ≠ d) : memRead t a = memRead s a := by
  have hb : t.mem.inBounds a ↔ s.mem.inBounds a := by rw [ht]; rfl
  by_cases h : s.mem.inBounds a
  · rw [memRead_eq_ok_iff.2 ⟨hb.2 h, rfl⟩, memRead_eq_ok_iff.2 ⟨h, rfl⟩, ht, Memory.get_set_other _ _ (by omega)]
  · rw [memRead_eq_error_iff.2 ⟨mt hb.1 h, rfl⟩, memRead_eq_error_iff.2 ⟨h, rfl⟩]

/-! ### The operand resolver (40_execution_cycle R84, R85) -/

theorem readOperand_eq_ok_iff {s : State} {slot : Int} {m : Mode} {v : Int} :
    readOperand s slot m = .ok v ↔
      ∃ r, memRead s slot = .ok r ∧ ((m = .immediate ∧ v = r) ∨ (m = .position ∧ memRead s r = .ok v)) := by
  unfold readOperand
  rw [bind_eq_ok_iff]
  cases m <;> simp [eq_comm]

theorem readOperand_eq_error_iff {s : State} {slot : Int} {m : Mode} {f : FaultRecord} :
    readOperand s slot m = .error f ↔
      memRead s slot = .error f ∨ (m = .position ∧ ∃ r, memRead s slot = .ok r ∧ memRead s r = .error f) := by
  unfold readOperand
  rw [bind_eq_error_iff]
  cases m <;> simp

theorem writeAddress_eq_ok_iff {s : State} {slot d : Int} :
    writeAddress s slot = .ok d ↔ memRead s slot = .ok d ∧ s.mem.inBounds d := by
  unfold writeAddress
  rw [bind_eq_ok_iff]
  constructor
  · rintro ⟨r, hr, h⟩
    split at h
    · simp only [pure_eq_ok, Except.ok.injEq] at h; subst h; exact ⟨hr, by assumption⟩
    · simp at h
  · rintro ⟨hr, hd⟩
    exact ⟨d, hr, by rw [if_pos hd]; rfl⟩

theorem writeAddress_eq_error_iff {s : State} {slot : Int} {f : FaultRecord} :
    writeAddress s slot = .error f ↔
      memRead s slot = .error f ∨ ∃ r, memRead s slot = .ok r ∧ ¬s.mem.inBounds r ∧ f = .outOfBounds r := by
  unfold writeAddress
  rw [bind_eq_error_iff]
  refine or_congr_right (exists_congr fun r => and_congr_right fun _ => ?_)
  by_cases h : s.mem.inBounds r
  · rw [if_pos h]; simp only [pure_eq_ok, reduceCtorEq, eq_true h, not_true_eq_false, false_and]
  · rw [if_neg h]; simp only [throw_eq_error, Except.error.injEq, h, not_false_eq_true, true_and, eq_comm]

/-! ### The FIFOs (00_scope R17) -/

theorem inPop_eq_ok_iff {s t : State} {v : Int} :
    inPop s = .ok (v, t) ↔ s.iq = v :: t.iq ∧ t = { s with iq := t.iq } := by
  unfold inPop
  cases h : s.iq with
  | nil => simp
  | cons u rest =>
    simp only [Except.ok.injEq, Prod.mk.injEq]
    constructor
    · rintro ⟨rfl, rfl⟩; simp
    · rintro ⟨h1, h2⟩
      simp only [List.cons.injEq] at h1
      obtain ⟨rfl, rfl⟩ := h1
      exact ⟨rfl, h2.symm⟩

theorem inPop_eq_error_iff {s : State} {f : FaultRecord} : inPop s = .error f ↔ s.iq = [] ∧ f = .inputExhausted := by
  unfold inPop
  cases h : s.iq <;> simp [eq_comm]

theorem outPush_eq_ok_iff {s t : State} {v : Int} :
    outPush s v = .ok t ↔ s.cfg.outDepth ≠ some s.oq.length ∧ t = { s with oq := s.oq ++ [v] } := by
  unfold outPush; split <;> simp_all [eq_comm]

theorem outPush_eq_error_iff {s : State} {v : Int} {f : FaultRecord} :
    outPush s v = .error f ↔ s.cfg.outDepth = some s.oq.length ∧ f = .outputOverflow := by
  unfold outPush; split <;> simp_all [eq_comm]

/-! ### The range rule (41_arithmetic R98) -/

theorem rangeResult_eq_ok_iff {c : Config} {x : Int} {v : Int} :
    rangeResult c x = .ok v ↔
      (isWord c.wordBits x ∧ v = x) ∨
        (¬isWord c.wordBits x ∧ c.overflowPolicy = .wrap ∧ v = wrapWord c.wordBits x) := by
  unfold rangeResult
  by_cases h : isWord c.wordBits x
  · rw [if_pos h]; simp only [Except.ok.injEq, eq_true h, true_and, not_true_eq_false, false_and, or_false, eq_comm]
  · rw [if_neg h]
    cases c.overflowPolicy <;>
      simp only [Except.ok.injEq, h, reduceCtorEq, true_and, not_false_eq_true, false_and, and_false, false_or, eq_comm]

theorem rangeResult_eq_error_iff {c : Config} {x : Int} {f : FaultRecord} :
    rangeResult c x = .error f ↔
      ¬isWord c.wordBits x ∧ c.overflowPolicy = .fault ∧ f = .arithmeticOverflow := by
  unfold rangeResult
  by_cases h : isWord c.wordBits x
  · rw [if_pos h]; simp only [reduceCtorEq, eq_true h, not_true_eq_false, false_and]
  · rw [if_neg h]
    cases c.overflowPolicy <;>
      simp only [Except.error.injEq, h, reduceCtorEq, true_and, not_false_eq_true, false_and, and_false, eq_comm]

/-! ### The courses of the formats -/

theorem threeOperand_eq_ok_iff {s t : State} {m1 m2 : Mode} {result : Int → Int → Except FaultRecord Int} :
    threeOperand s m1 m2 result = .ok t ↔
      ∃ a b d v, readOperand s (s.pc + 1) m1 = .ok a ∧ readOperand s (s.pc + 2) m2 = .ok b ∧
        writeAddress s (s.pc + 3) = .ok d ∧ result a b = .ok v ∧
        t = { s with mem := s.mem.set d.toNat v, pc := s.pc + 4 } := by
  unfold threeOperand
  simp only [bind_eq_ok_iff, memWrite_eq_ok_iff, pure_eq_ok, Except.ok.injEq]
  constructor
  · rintro ⟨a, ha, b, hb, d, hd, v, hv, u, ⟨_, rfl⟩, rfl⟩
    exact ⟨a, b, d, v, ha, hb, hd, hv, rfl⟩
  · rintro ⟨a, b, d, v, ha, hb, hd, hv, rfl⟩
    exact ⟨a, ha, b, hb, d, hd, v, hv, _, ⟨(writeAddress_eq_ok_iff.1 hd).2, rfl⟩, rfl⟩

theorem threeOperand_eq_error_iff {s : State} {m1 m2 : Mode} {result : Int → Int → Except FaultRecord Int}
    {f : FaultRecord} :
    threeOperand s m1 m2 result = .error f ↔
      readOperand s (s.pc + 1) m1 = .error f ∨
      ∃ a, readOperand s (s.pc + 1) m1 = .ok a ∧
        (readOperand s (s.pc + 2) m2 = .error f ∨
        ∃ b, readOperand s (s.pc + 2) m2 = .ok b ∧
          (writeAddress s (s.pc + 3) = .error f ∨
          ∃ d, writeAddress s (s.pc + 3) = .ok d ∧ result a b = .error f)) := by
  unfold threeOperand
  simp only [bind_eq_error_iff, memWrite_eq_error_iff, pure_eq_ok, reduceCtorEq, and_false, exists_false, or_false]
  refine or_congr_right (exists_congr fun a => and_congr_right fun _ => or_congr_right (exists_congr fun b =>
    and_congr_right fun _ => or_congr_right (exists_congr fun d => and_congr_right fun hd => ?_)))
  constructor
  · rintro (h | ⟨v, -, hn, -⟩)
    · exact h
    · exact absurd (writeAddress_eq_ok_iff.1 hd).2 hn
  · exact .inl

theorem conditionalJump_eq_ok_iff {s t : State} {m1 m2 : Mode} {taken : Int → Bool} :
    conditionalJump s m1 m2 taken = .ok t ↔
      ∃ c, readOperand s (s.pc + 1) m1 = .ok c ∧
        ((taken c = true ∧ ∃ x, readOperand s (s.pc + 2) m2 = .ok x ∧ t = s.jumpTo x) ∨
         (taken c = false ∧ (s.cfg.jumpEval = .eager → ∃ x, readOperand s (s.pc + 2) m2 = .ok x) ∧
            t = s.advance 3)) := by
  unfold conditionalJump
  rw [bind_eq_ok_iff]
  refine exists_congr fun c => and_congr_right fun _ => ?_
  cases hj : s.cfg.jumpEval <;> cases ht : taken c <;>
    simp only [bind_eq_ok_iff, pure_eq_ok, Except.ok.injEq, if_true, if_false, reduceCtorEq, eq_comm (b := t),
      true_and, false_and, or_false, false_or, false_implies, true_implies, Bool.false_eq_true, exists_and_right]

theorem conditionalJump_eq_error_iff {s : State} {m1 m2 : Mode} {taken : Int → Bool} {f : FaultRecord} :
    conditionalJump s m1 m2 taken = .error f ↔
      readOperand s (s.pc + 1) m1 = .error f ∨
      ∃ c, readOperand s (s.pc + 1) m1 = .ok c ∧ (taken c = true ∨ s.cfg.jumpEval = .eager) ∧
        readOperand s (s.pc + 2) m2 = .error f := by
  unfold conditionalJump
  rw [bind_eq_error_iff]
  refine or_congr_right (exists_congr fun c => and_congr_right fun _ => ?_)
  cases hj : s.cfg.jumpEval <;> cases ht : taken c <;> simp [bind_eq_error_iff]

theorem inputResult_eq_ok_iff {s t : State} :
    inputResult s = .ok t ↔
      ∃ d v rest, writeAddress s (s.pc + 1) = .ok d ∧ s.iq = v :: rest ∧
        t = { s with mem := s.mem.set d.toNat v, iq := rest, pc := s.pc + 2 } := by
  unfold inputResult
  simp only [bind_eq_ok_iff, Prod.exists, pure_eq_ok, Except.ok.injEq]
  constructor
  · rintro ⟨d, hd, v, u, hu, w, hw, rfl⟩
    obtain ⟨h1, h2⟩ := inPop_eq_ok_iff.1 hu
    obtain ⟨-, rfl⟩ := memWrite_eq_ok_iff.1 hw
    refine ⟨d, v, u.iq, hd, h1, ?_⟩
    rw [h2]; rfl
  · rintro ⟨d, v, rest, hd, hq, rfl⟩
    exact ⟨d, hd, v, { s with iq := rest }, inPop_eq_ok_iff.2 ⟨hq, rfl⟩, _,
      memWrite_eq_ok_iff.2 ⟨(writeAddress_eq_ok_iff.1 hd).2, rfl⟩, rfl⟩

theorem inputResult_eq_error_iff {s : State} {f : FaultRecord} :
    inputResult s = .error f ↔
      writeAddress s (s.pc + 1) = .error f ∨
      ∃ d, writeAddress s (s.pc + 1) = .ok d ∧ s.iq = [] ∧ f = .inputExhausted := by
  unfold inputResult
  simp only [bind_eq_error_iff, Prod.exists, pure_eq_ok, reduceCtorEq, and_false, exists_false, or_false,
    inPop_eq_error_iff]
  refine or_congr_right (exists_congr fun d => and_congr_right fun hd => ?_)
  constructor
  · rintro (h | ⟨v, u, hu, hw⟩)
    · exact h
    · obtain ⟨-, h2⟩ := inPop_eq_ok_iff.1 hu
      have hb : s.mem.inBounds d := (writeAddress_eq_ok_iff.1 hd).2
      have : u.mem = s.mem := by rw [h2]
      exact absurd (this ▸ hb) (memWrite_eq_error_iff.1 hw).1
  · exact .inl

theorem outputResult_eq_ok_iff {s t : State} {m1 : Mode} :
    outputResult s m1 = .ok t ↔
      ∃ v, readOperand s (s.pc + 1) (outputOperandMode s.cfg m1) = .ok v ∧ s.cfg.outDepth ≠ some s.oq.length ∧
        t = { s with oq := s.oq ++ [v], pc := s.pc + 2 } := by
  unfold outputResult
  simp only [bind_eq_ok_iff, outPush_eq_ok_iff, pure_eq_ok, Except.ok.injEq]
  refine exists_congr fun v => and_congr_right fun _ => ?_
  constructor
  · rintro ⟨u, ⟨h, rfl⟩, rfl⟩; exact ⟨h, rfl⟩
  · rintro ⟨h, rfl⟩; exact ⟨_, ⟨h, rfl⟩, rfl⟩

theorem outputResult_eq_error_iff {s : State} {m1 : Mode} {f : FaultRecord} :
    outputResult s m1 = .error f ↔
      readOperand s (s.pc + 1) (outputOperandMode s.cfg m1) = .error f ∨
      ∃ v, readOperand s (s.pc + 1) (outputOperandMode s.cfg m1) = .ok v ∧
        s.cfg.outDepth = some s.oq.length ∧ f = .outputOverflow := by
  unfold outputResult
  simp [bind_eq_error_iff, outPush_eq_error_iff]

/-! ### The end of an instruction rule (60_exceptions R120) -/

theorem settle_eq_next_iff {s t : State} {r : Except FaultRecord State} :
    settle s r = .next t ↔ r = .ok t ∨ ∃ f, r = .error f ∧ t = s.raise f := by
  cases r <;> simp [settle, eq_comm]

@[simp] theorem settle_ok (s t : State) : settle s (.ok t) = .next t := rfl

@[simp] theorem settle_error (s : State) (f : FaultRecord) : settle s (.error f) = .next (s.raise f) := rfl

/-- What an instruction rule computes, before its fault is taken. -/
def courseOf (i : Instr) (s : State) : Except FaultRecord State :=
  match i with
  | .add m1 m2 => threeOperand s m1 m2 fun a b => rangeResult s.cfg (a + b)
  | .multiply m1 m2 => threeOperand s m1 m2 fun a b => rangeResult s.cfg (a * b)
  | .input => inputResult s
  | .output m1 => outputResult s m1
  | .jumpIfTrue m1 m2 => conditionalJump s m1 m2 fun c => decide (c ≠ 0)
  | .jumpIfFalse m1 m2 => conditionalJump s m1 m2 fun c => decide (c = 0)
  | .lessThan m1 m2 => threeOperand s m1 m2 fun a b => .ok (truthWord (decide (a < b)))
  | .equals m1 m2 => threeOperand s m1 m2 fun a b => .ok (truthWord (decide (a = b)))
  | .halt => .ok s.halted

/-- Every instruction ends by `settle`: its result, or its fault taken in the state it started from. -/
theorem exec_eq_settle (i : Instr) (s : State) : exec i s = settle s (courseOf i s) := by
  cases i <;> rfl

/-- Everything an instruction can answer. -/
theorem exec_eq_next_iff {i : Instr} {s t : State} :
    exec i s = .next t ↔ courseOf i s = .ok t ∨ ∃ f, courseOf i s = .error f ∧ t = s.raise f := by
  rw [exec_eq_settle, settle_eq_next_iff]

end Sys2Proof.Machine
end

