-- ==== Sys2Proof/Laws/PerInstr.lean ====
section
/-! SUPPORT. A statement about every instruction as syntax: its instruction word. -/

namespace Sys2Proof.Laws.InstructionWord

/-- The instruction word is not negative, has four decimal digits at most, and its two low digits are the opcode
(30_encoding R56, R67); the instruction has as many words as its format says (30_encoding R61). -/
def Statement (i : Instr) : Prop :=
  0 ≤ encode i ∧ encode i < 10000 ∧ encode i % 100 = i.opcode ∧ i.length = i.format.words ∧ i.length ≤ 4

theorem add (m1 m2 : Mode) : Statement (.add m1 m2) := by unfold Statement; cases m1 <;> cases m2 <;> decide
theorem multiply (m1 m2 : Mode) : Statement (.multiply m1 m2) := by unfold Statement; cases m1 <;> cases m2 <;> decide
theorem input : Statement .input := by unfold Statement; decide
theorem output (m1 : Mode) : Statement (.output m1) := by unfold Statement; cases m1 <;> decide
theorem jumpIfTrue (m1 m2 : Mode) : Statement (.jumpIfTrue m1 m2) := by
  unfold Statement; cases m1 <;> cases m2 <;> decide
theorem jumpIfFalse (m1 m2 : Mode) : Statement (.jumpIfFalse m1 m2) := by
  unfold Statement; cases m1 <;> cases m2 <;> decide
theorem lessThan (m1 m2 : Mode) : Statement (.lessThan m1 m2) := by unfold Statement; cases m1 <;> cases m2 <;> decide
theorem equals (m1 m2 : Mode) : Statement (.equals m1 m2) := by unfold Statement; cases m1 <;> cases m2 <;> decide
theorem halt : Statement .halt := by unfold Statement; decide

end Sys2Proof.Laws.InstructionWord
end

