-- ==== Sys2Proof/Laws/Safety.lean ====
section
/-! SUPPORT. What an operand that does not resolve reports, in the terms of Safety.lean (60_exceptions R122). -/

namespace Sys2Proof.Machine

/-- A source operand that does not resolve reports an address it checks, outside [0, L). -/
theorem readOperand_error_checked {s : State} {k : Int} {m : Mode} {f : FaultRecord}
    (h : readOperand s (s.pc + k) m = .error f) :
    ∃ a, f = .outOfBounds a ∧ ¬s.mem.inBounds a ∧ s.sourceChecks k m a := by
  rcases readOperand_eq_error_iff.1 h with h | ⟨hm, r, hr, h⟩
  · obtain ⟨h1, rfl⟩ := memRead_eq_error_iff.1 h; exact ⟨_, rfl, h1, .inl rfl⟩
  · obtain ⟨h1, rfl⟩ := memRead_eq_error_iff.1 h; exact ⟨_, rfl, h1, .inr ⟨hm, hr⟩⟩

/-- A destination that does not resolve reports an address it checks, outside [0, L). -/
theorem writeAddress_error_checked {s : State} {k : Int} {f : FaultRecord}
    (h : writeAddress s (s.pc + k) = .error f) :
    ∃ a, f = .outOfBounds a ∧ ¬s.mem.inBounds a ∧ s.destinationChecks k a := by
  rcases writeAddress_eq_error_iff.1 h with h | ⟨r, hr, hb, rfl⟩
  · obtain ⟨h1, rfl⟩ := memRead_eq_error_iff.1 h; exact ⟨_, rfl, h1, .inl rfl⟩
  · exact ⟨_, rfl, hb, .inr hr⟩

end Sys2Proof.Machine
end

