-- ==== Sys2Proof/Laws/Step.lean ====
section
/-! SUPPORT. What an instruction changes in general, and everything a step can answer. -/

namespace Sys2Proof.Machine

/-- An instruction that completes leaves the parameters, L and SC alone, and RS but for a halt (10_state R21, R31). -/
theorem courseOf_ok_frame {i : Instr} {s t : State} (h : courseOf i s = .ok t) :
    t.cfg = s.cfg ∧ t.mem.len = s.mem.len ∧ t.sc = s.sc ∧ (t.rs = s.rs ∨ t.rs = .halted) := by
  cases i with
  | add m1 m2 => obtain ⟨a, b, d, v, -, -, -, -, rfl⟩ := threeOperand_eq_ok_iff.1 h; simp
  | multiply m1 m2 => obtain ⟨a, b, d, v, -, -, -, -, rfl⟩ := threeOperand_eq_ok_iff.1 h; simp
  | input => obtain ⟨d, v, rest, -, -, rfl⟩ := inputResult_eq_ok_iff.1 h; simp
  | output m1 => obtain ⟨v, -, -, rfl⟩ := outputResult_eq_ok_iff.1 h; simp
  | jumpIfTrue m1 m2 => obtain ⟨c, -, ⟨-, x, -, rfl⟩ | ⟨-, -, rfl⟩⟩ := conditionalJump_eq_ok_iff.1 h <;> simp
  | jumpIfFalse m1 m2 => obtain ⟨c, -, ⟨-, x, -, rfl⟩ | ⟨-, -, rfl⟩⟩ := conditionalJump_eq_ok_iff.1 h <;> simp
  | lessThan m1 m2 => obtain ⟨a, b, d, v, -, -, -, -, rfl⟩ := threeOperand_eq_ok_iff.1 h; simp
  | equals m1 m2 => obtain ⟨a, b, d, v, -, -, -, -, rfl⟩ := threeOperand_eq_ok_iff.1 h; simp
  | halt => simp only [courseOf, Except.ok.injEq] at h; subst h; simp

theorem fetchDecode_eq_ok_iff {s : State} {i : Instr} :
    fetchDecode s = .ok i ↔
      s.cfg.stepLimit ≠ some s.sc ∧ ∃ w, memRead s s.pc = .ok w ∧ decode s.cfg w = .ok i := by
  unfold fetchDecode
  by_cases h : s.cfg.stepLimit = some s.sc
  · rw [if_pos h]; simp [h]
  · rw [if_neg h, bind_eq_ok_iff]; simp [h]

theorem fetchDecode_eq_error_iff {s : State} {f : FaultRecord} :
    fetchDecode s = .error f ↔
      (s.cfg.stepLimit = some s.sc ∧ f = .stepLimitExceeded) ∨
      (s.cfg.stepLimit ≠ some s.sc ∧
        (memRead s s.pc = .error f ∨ ∃ w, memRead s s.pc = .ok w ∧ decode s.cfg w = .error f)) := by
  unfold fetchDecode
  by_cases h : s.cfg.stepLimit = some s.sc
  · rw [if_pos h]; simp [h, eq_comm]
  · rw [if_neg h, bind_eq_error_iff]; simp [h]

/-- The end of a step that does not fault. -/
theorem completeStep_next_ok {t : State} (h : ∀ f, t.rs ≠ .faulted f) :
    completeStep (.next t) = .next t.countStep := by
  cases hr : t.rs with
  | running => simp [completeStep, hr]
  | halted => simp [completeStep, hr]
  | faulted f => exact absurd hr (h f)

@[simp] theorem completeStep_next_raise (s : State) (f : FaultRecord) :
    completeStep (.next (s.raise f)) = .next (s.raise f) := rfl

/-- EVERYTHING A STEP CAN DO: it runs only from RS = Running, and either raises one fault, in the state it started from,
or completes one instruction and counts it (40_execution_cycle R89). -/
theorem step_eq_next_iff {s t : State} :
    step s = .next t ↔
      s.rs = .running ∧
        ((∃ f, t = s.raise f ∧
            (fetchDecode s = .error f ∨ ∃ i, fetchDecode s = .ok i ∧ courseOf i s = .error f)) ∨
          ∃ i u, fetchDecode s = .ok i ∧ courseOf i s = .ok u ∧ t = u.countStep) := by
  unfold step
  cases hr : s.rs with
  | halted => simp
  | faulted r => simp
  | running =>
    simp only [stepRunning, true_and]
    cases hf : fetchDecode s with
    | error f =>
      simp only [Host.Outcome.next.injEq, Except.error.injEq, reduceCtorEq, false_and, exists_false, or_false]
      constructor
      · rintro rfl; exact ⟨f, rfl, rfl⟩
      · rintro ⟨g, rfl, rfl⟩; rfl
    | ok i =>
      simp only [exec_eq_settle, Except.ok.injEq, reduceCtorEq, false_or, exists_eq_left', exists_and_left]
      cases hc : courseOf i s with
      | error f =>
        simp only [settle_error, completeStep_next_raise, Host.Outcome.next.injEq, Except.error.injEq, reduceCtorEq,
          false_and, exists_false, or_false]
        constructor
        · rintro rfl; exact ⟨f, rfl, rfl⟩
        · rintro ⟨g, rfl, rfl⟩; rfl
      | ok u =>
        have hu : ∀ f, u.rs ≠ .faulted f := by
          intro f hf'
          rcases (courseOf_ok_frame hc).2.2.2 with h | h <;> rw [hf'] at h
          · rw [hr] at h; cases h
          · cases h
        simp only [settle_ok, completeStep_next_ok hu, Host.Outcome.next.injEq, Except.ok.injEq, reduceCtorEq, and_false,
          exists_false, false_or, exists_eq_left']
        exact eq_comm

end Sys2Proof.Machine
end

