-- ==== Sys2Proof/Tests/Slice0.lean ====
section
/-! SUPPORT. Tests of the model and the witnesses of its statements' hypotheses. The expected results are those of
95_test_vectors (named in each test's comment) and of the rules' own examples. -/

namespace Sys2Proof.Tests

open Sys2Proof.Machine

/-- The parameters of the vectors marked W=16. -/
def config16 : Config := { Config.default with wordBits := 16, memMax := 32764 }

/-- The two settings of MODE_CHECK other than the default. -/
def alwaysConfig : Config := { Config.default with modeCheck := .always }
def sourcesConfig : Config := { Config.default with modeCheck := .sourcesOnly }

/-- A loaded machine: the state the load leaves. -/
def loaded (c : Config) (image inputs : List Int) : State :=
  { cfg := c, mem := Memory.ofImage image, pc := 0, rs := .running, iq := inputs, oq := [], sc := 0 }

/-- The state after one step, and the state itself where there is none. -/
def after (s : State) : State :=
  match step s with
  | .next t => t
  | .fault _ => s
  | .refused _ => s

/-! ## Well-formedness: each check refuses an ill-formed term -/

theorem test_config_wf : config16.wf := by decide
theorem test_config_mem_max_too_large : ¬({ config16 with memMax := 32765 } : Config).wf := by decide
theorem test_load_accepted : loadable config16 [1, -32768, 32767] [5] := by decide
theorem test_load_image_too_long : ¬loadable { config16 with memMax := 2 } [1, 2, 3] [] := by decide
theorem test_load_image_value_no_word : ¬loadable config16 [32768] [] := by decide
theorem test_load_input_value_no_word : ¬loadable config16 [99] [-32769] := by decide
theorem test_asm_wf : (Asm.add (.immediate 2) (.position 3) 5).wf 16 := by decide
theorem test_asm_parameter_no_word : ¬(Asm.add (.immediate 32768) (.position 3) 5).wf 16 := by decide

/-! ## Decoding: words written out from 30_encoding R62, R67 and the DEC vectors -/

-- DEC1, DEC2, DEC3, DEC4: digits 4 and up are ignored
theorem test_decode_add : [1, 1101, 11101, 901101].map (decode Config.default) =
    [.ok (.add .position .position), .ok (.add .immediate .immediate), .ok (.add .immediate .immediate),
      .ok (.add .immediate .immediate)] := by decide
-- DEC5 and 41_arithmetic R96
theorem test_decode_multiply : [1002, 102].map (decode Config.default) =
    [.ok (.multiply .position .immediate), .ok (.multiply .immediate .position)] := by decide
-- DEC9, DEC10, 42_io R100
theorem test_decode_input : [3, 103, 2003, 203].map (decode Config.default) =
    [.ok .input, .ok .input, .ok .input, .error (.invalidParameterMode 2)] := by decide
-- DEC11, DEC12, 42_io R101
theorem test_decode_output : [4, 104, 2004, 204].map (decode Config.default) =
    [.ok (.output .position), .ok (.output .immediate), .ok (.output .position),
      .error (.invalidParameterMode 2)] := by decide
-- DEC23 and 43_control R107
theorem test_decode_jump_if_true : [1105, 1005].map (decode Config.default) =
    [.ok (.jumpIfTrue .immediate .immediate), .ok (.jumpIfTrue .position .immediate)] := by decide
-- 43_control R108
theorem test_decode_jump_if_false : [106, 6].map (decode Config.default) =
    [.ok (.jumpIfFalse .immediate .position), .ok (.jumpIfFalse .position .position)] := by decide
-- 44_compare R115
theorem test_decode_less_than : [107, 1007].map (decode Config.default) =
    [.ok (.lessThan .immediate .position), .ok (.lessThan .position .immediate)] := by decide
-- DEC24 and 30_encoding R67
theorem test_decode_equals : [10008, 1108].map (decode Config.default) =
    [.ok (.equals .position .position), .ok (.equals .immediate .immediate)] := by decide
-- DEC13, DEC14
theorem test_decode_halt : [99, 199, 299].map (decode Config.default) = [.ok .halt, .ok .halt, .ok .halt] := by decide
-- DEC6, DEC7, DEC8, DEC15 to DEC20
theorem test_decode_illegal : [201, 3201, 2101, 0, 9, 100, 250, -1, -99].map (decode Config.default) =
    [.error (.invalidParameterMode 2), .error (.invalidParameterMode 2), .error (.invalidParameterMode 2),
      .error (.invalidOpcode 0), .error (.invalidOpcode 9), .error (.invalidOpcode 0), .error (.invalidOpcode 50),
      .error (.invalidOpcode (-1)), .error (.invalidOpcode (-99))] := by decide
-- DEC9, DEC11, DEC12, DEC14 under SourcesOnly
theorem test_decode_sources_only : [203, 204, 2004, 299].map (decode sourcesConfig) =
    [.ok .input, .error (.invalidParameterMode 2), .ok (.output .position), .ok .halt] := by decide
-- DEC10, DEC14, DEC18, DEC20, DEC21, DEC22 under Always
theorem test_decode_always : [2003, 299, 250, -99, -101, -9901].map (decode alwaysConfig) =
    [.error (.invalidParameterMode 2), .error (.invalidParameterMode 2), .error (.invalidParameterMode 2),
      .error (.invalidOpcode (-99)), .error (.invalidParameterMode (-1)), .error (.invalidParameterMode (-9))] := by decide
-- 30_encoding R67, R70
theorem test_encode : [encode (.equals .immediate .immediate), encode (.lessThan .immediate .immediate)] = [1108, 1107] := by
  decide
theorem test_pseudo_instructions :
    [(Asm.jmp (.immediate 7)).words, (Asm.mov (.position 5) 9).words, (Asm.mov (.immediate 6) 9).words] =
      [[1105, 1, 7], [1001, 5, 0, 9], [1101, 6, 0, 9]] := by decide
-- program P2 of 95_test_vectors: its assembly and its image
theorem test_assemble : assemble [.code (.add (.immediate 1) (.immediate 98) 6), .code (.output (.immediate 7)), .word 0] =
    [1101, 1, 98, 6, 104, 7, 0] := by decide
theorem test_decode_table_word : decodeTableWord 32 1101 = some (.add .immediate .immediate) := by decide
theorem test_decode_table_word_refused : decodeTableWord 16 98 = none := by decide
theorem test_fetch_word_runs_first : fetchDecode (State.reset.withFetchWord 32 99) = .ok .halt := by decide

/-! ## One step of each instruction -/

-- A4: both sources and the destination one cell
theorem test_add_same_cell :
    (after (loaded Config.default [1, 5, 5, 5, 99, 21] [])).mem.toImage = [1, 5, 5, 5, 99, 42] := by decide
-- A7w: wrap to WMIN
theorem test_add_wraps :
    (after (loaded { config16 with overflowPolicy := .wrap } [1101, 32767, 1, 5, 99, 0] [])).mem.get 5 = -32768 := by decide
-- M1
theorem test_multiply_sign : (after (loaded Config.default [1102, 3, -4, 5, 99, 0] [])).mem.get 5 = -12 := by decide
-- M5: WMIN * -1
theorem test_multiply_overflow :
    (after (loaded config16 [1102, -32768, -1, 5, 99, 0] [])).rs = .faulted .arithmeticOverflow := by decide
-- I9: the FIFO order
theorem test_input_front : (after (loaded Config.default [3, 5, 3, 6, 99, 0, 0] [11, 22, 33])).mem.get 5 = 11 ∧
    (after (loaded Config.default [3, 5, 3, 6, 99, 0, 0] [11, 22, 33])).iq = [22, 33] := by decide
-- I8: it overwrites its own word, and pc still moves by 2
theorem test_input_own_word : (after (loaded Config.default [3, 0, 99] [5])).mem.toImage = [5, 0, 99] ∧
    (after (loaded Config.default [3, 0, 99] [5])).pc = 2 := by decide
-- O2 and O2p: the two readings of OUTPUT_MODE
theorem test_output_immediate : (after (loaded Config.default [104, -5, 99] [])).oq = [-5] := by decide
theorem test_output_position_mode :
    (after (loaded { Config.default with outputMode := .position } [104, -5, 99] [])).rs = .faulted (.outOfBounds (-5)) := by
  decide
-- J8: a position-mode target
theorem test_jump_if_true_position_target : (after (loaded Config.default [105, 1, 6, 104, 7, 99, 5] [])).pc = 5 := by decide
-- J5, its first step: an untaken jump with a target out of range
theorem test_jump_if_true_untaken : (after (loaded Config.default [5, 6, 100, 104, 1, 99, 0] [])).pc = 3 := by decide
-- J3
theorem test_jump_if_false_taken : (after (loaded Config.default [1106, 0, 5, 104, 0, 99] [])).pc = 5 := by decide
-- J13e
theorem test_jump_if_false_eager :
    (after (loaded { Config.default with jumpEval := .eager } [1106, 1] [])).rs = .faulted (.outOfBounds 2) := by decide
-- C1, C2: signed
theorem test_less_than_signed : (after (loaded Config.default [1107, -1, 8, 5, 99, 7] [])).mem.get 5 = 1 ∧
    (after (loaded Config.default [1107, 8, -1, 5, 99, 7] [])).mem.get 5 = 0 := by decide
-- C3
theorem test_less_than_equal_is_not_less : (after (loaded Config.default [1107, 8, 8, 5, 99, 7] [])).mem.get 5 = 0 := by
  decide
-- C9: the destination is a source
theorem test_equals_destination_is_source : (after (loaded Config.default [1008, 5, 42, 5, 99, 42] [])).mem.get 5 = 1 := by
  decide
-- C5
theorem test_equals_sign : (after (loaded Config.default [1108, -1, 1, 5, 99, 7] [])).mem.get 5 = 0 := by decide
-- H1
theorem test_halt : (after (loaded Config.default [99] [])).rs = .halted ∧ (after (loaded Config.default [99] [])).pc = 0 := by
  decide
-- F5 and J12s: the ceiling precedes the fetch
theorem test_step_ceiling :
    (after (loaded { Config.default with stepLimit := some 0 } [1105, 1, 0] [])).rs = .faulted .stepLimitExceeded := by decide
-- H5: L = 0
theorem test_reset_first_step : (after State.reset).rs = .faulted (.outOfBounds 0) := by decide
-- 40_execution_cycle R75
theorem test_no_step_after_halt : step (loaded Config.default [99] []).halted = .fault .alreadyHalted := rfl
-- 10_state R26: STATUS of vector F3
theorem test_status_of_fault :
    (after (loaded Config.default [98] [])).hostStatus = some { state := 2, cause := 1, info := 98 } := by decide
-- S2a, two steps: outputs and final memory on Halted
theorem test_host_result : (after (after (loaded Config.default [1, 0, 0, 0, 99] []))).hostResult =
    some (.ok ([], [2, 0, 0, 0, 99])) := by decide

/-! ## Witnesses: states and operands that meet the hypotheses of the statements, clause by clause -/

-- TruncatingDivisionAndRemainder: all premises meet at a = 0, b = 1; a negative word
theorem witness_truncating_zero : (0 : Int) ≤ 0 ∧ (0 : Int) ≤ 0 ∧ (1 : Int) ≠ 0 ∧ (0 : Int) < 1 ∧ trem 0 1 = 0 := by decide
theorem witness_truncating_negative : (-9901 : Int) ≤ 0 ∧ trem (-9901) 100 = -1 ∧ tdiv (-9901) 100 = -99 := by decide
-- DecodeOfEncodeIsTheInstruction: the least k, and a don't-care M3
theorem witness_encode_least : (0 : Int) ≤ 0 ∧ decode Config.default (encode .halt + 10000 * 0) = .ok .halt := by decide
theorem witness_encode_m3 : (0 : Int) ≤ 1 ∧
    decode Config.default (encode (.add .immediate .immediate) + 10000 * 1) = .ok (.add .immediate .immediate) := by decide
-- EncodeOfDecodeIsTheUsedDigits, OpcodeMapSelectsTheInstruction: each format clause
theorem witness_decode_f3s : decode Config.default 901101 = .ok (.add .immediate .immediate) ∧
    (Instr.add .immediate .immediate).format = .f3s := by decide
theorem witness_decode_f2s : decode Config.default 1005 = .ok (.jumpIfTrue .position .immediate) ∧
    (Instr.jumpIfTrue .position .immediate).format = .f2s := by decide
theorem witness_decode_fs : decode Config.default 2104 = .ok (.output .immediate) ∧
    (Instr.output .immediate).format = .fs ∧ Config.default.outputMode = .honour := by decide
-- DigitsAboveThreeAreDontCare
theorem witness_high_digits : (0 : Int) ≤ 1101 ∧ (0 : Int) ≤ 901101 ∧ (1101 : Int) % 10000 = 901101 % 10000 := by decide
-- NegativeWordsAreIllegal: the three outcomes, DEC19, DEC21 and a word whose digit 3 alone is not 0
theorem witness_negative : (-1 : Int) < 0 ∧ decode Config.default (-1) = .error (.invalidOpcode (-1)) := by decide
theorem witness_negative_digit1 : (-101 : Int) < 0 ∧
    decode alwaysConfig (-101) = .error (.invalidParameterMode (-1)) := by decide
theorem witness_negative_digit2 : (-3001 : Int) < 0 ∧
    decode alwaysConfig (-3001) = .error (.invalidParameterMode (-3)) := by decide
-- LegalWordsAreExactlyTheseOnes: the smallest and the largest opcode, under each MODE_CHECK, and Output's own clause
theorem witness_legal_always : alwaysConfig.modeCheck = .always ∧
    decode alwaysConfig 1101 = .ok (.add .immediate .immediate) ∧
    decode alwaysConfig 1199 = .ok .halt := by decide
theorem witness_legal_first : Config.default.modeCheck = .firstTwoParams ∧ trem 108 100 ≠ 99 ∧ trem 108 100 ≠ 3 ∧
    trem 108 100 ≠ 4 ∧ decode Config.default 108 = .ok (.equals .immediate .position) := by decide
theorem witness_legal_sources : sourcesConfig.modeCheck = .sourcesOnly ∧
    trem 104 100 = 4 ∧ Config.default.outputMode = .honour ∧ trem 1 100 ≠ 99 ∧ trem 1 100 ≠ 3 ∧ trem 1 100 ≠ 4 := by decide
-- IllegalWordsReportInOrder: each of its clauses
theorem witness_illegal_opcode : Config.default.modeCheck ≠ .always ∧
    ¬((1 ≤ trem 9 100 ∧ trem 9 100 ≤ 8) ∨ trem 9 100 = 99) ∧ ¬((1 ≤ trem 0 100 ∧ trem 0 100 ≤ 8) ∨ trem 0 100 = 99) := by
  decide
theorem witness_illegal_always_digit1 : alwaysConfig.modeCheck = .always ∧ ¬(dig 299 2 = 0 ∨ dig 299 2 = 1) := by decide
theorem witness_illegal_always_digit2 : alwaysConfig.modeCheck = .always ∧ (dig 2099 2 = 0 ∨ dig 2099 2 = 1) ∧
    ¬(dig 2099 3 = 0 ∨ dig 2099 3 = 1) := by decide
theorem witness_illegal_always_opcode : alwaysConfig.modeCheck = .always ∧ (dig 98 2 = 0 ∨ dig 98 2 = 1) ∧
    (dig 98 3 = 0 ∨ dig 98 3 = 1) ∧ ¬((1 ≤ trem 98 100 ∧ trem 98 100 ≤ 8) ∨ trem 98 100 = 99) := by decide
theorem witness_illegal_first_digit1 : Config.default.modeCheck = .firstTwoParams ∧ 1 ≤ trem 203 100 ∧ trem 203 100 ≤ 8 ∧
    ¬(dig 203 2 = 0 ∨ dig 203 2 = 1) := by decide
theorem witness_illegal_sources_output : sourcesConfig.modeCheck = .sourcesOnly ∧ trem 204 100 = 4 ∧
    sourcesConfig.outputMode = .honour ∧ ¬(dig 204 2 = 0 ∨ dig 204 2 = 1) := by decide
theorem witness_illegal_two_sources_digit1 : sourcesConfig.modeCheck ≠ .always ∧ 1 ≤ trem 201 100 ∧ trem 201 100 ≤ 8 ∧
    trem 201 100 ≠ 3 ∧ trem 201 100 ≠ 4 ∧ ¬(dig 201 2 = 0 ∨ dig 201 2 = 1) := by decide
theorem witness_illegal_two_sources_digit2 : Config.default.modeCheck ≠ .always ∧ 1 ≤ trem 2108 100 ∧ trem 2108 100 ≤ 8 ∧
    trem 2108 100 ≠ 3 ∧ trem 2108 100 ≠ 4 ∧ (dig 2108 2 = 0 ∨ dig 2108 2 = 1) ∧
    ¬(dig 2108 3 = 0 ∨ dig 2108 3 = 1) := by decide
-- AssembledWordsDecode: the narrowest W
theorem witness_assembled : 12 ≤ 12 ∧ (Asm.jmp (.immediate 2047)).wf 12 := by decide
-- MemoryPrimitivesReadAndReplaceOneCell: the first and the last address, and the two addresses just outside
theorem witness_memory_inside : (0 : Int) ≤ 0 ∧ (0 : Int) < ((loaded Config.default [7, 8] []).mem.len : Int) ∧
    (0 : Int) ≤ 1 ∧ (1 : Int) < ((loaded Config.default [7, 8] []).mem.len : Int) := by decide
theorem witness_memory_outside : ¬((0 : Int) ≤ -1 ∧ (-1 : Int) < ((loaded Config.default [7, 8] []).mem.len : Int)) ∧
    ¬((0 : Int) ≤ 2 ∧ (2 : Int) < ((loaded Config.default [7, 8] []).mem.len : Int)) := by decide
-- EveryAccessIsBoundsChecked: the fetch at pc = L = 0, and a slot whose raw parameter is L
theorem witness_fetch_outside : ¬((0 : Int) ≤ 0 ∧ (0 : Int) < (State.reset.mem.len : Int)) ∧ State.reset.rs = .running ∧
    State.reset.cfg.stepLimit ≠ some State.reset.sc ∧ State.reset.pc = 0 := by decide
theorem witness_pointee_outside : ¬((0 : Int) ≤ 3 ∧ (3 : Int) < ((loaded Config.default [4, 3, 99] []).mem.len : Int)) ∧
    memRead (loaded Config.default [4, 3, 99] []) 1 = .ok 3 := by decide
-- RawParametersAreWholeWords and WriteAddressIsTheCheckedRawParameter: the last valid raw parameter and the first invalid one
theorem witness_read : memRead (loaded Config.default [4, 2, 99] []) 1 = .ok 2 ∧
    memRead (loaded Config.default [4, 2, 99] []) 2 = .ok 99 := by decide
theorem witness_write_address : memRead (loaded Config.default [3, 2, 99] []) 1 = .ok 2 ∧
    ((0 : Int) ≤ 2 ∧ (2 : Int) < ((loaded Config.default [3, 2, 99] []).mem.len : Int)) := by decide
theorem witness_write_address_slot : ¬((0 : Int) ≤ 1 ∧ (1 : Int) < ((loaded Config.default [3] []).mem.len : Int)) := by decide
theorem witness_write_address_parameter : memRead (loaded Config.default [3, 2] []) 1 = .ok 2 ∧
    ¬((0 : Int) ≤ 2 ∧ (2 : Int) < ((loaded Config.default [3, 2] []).mem.len : Int)) := by decide

/-- Vector A1, whose sum is in range, and A7 and M5, whose sum and product are not. -/
def sumState : State := loaded config16 [1101, 2, 3, 5, 99, 0] []
def sumOutState (p : OverflowPolicy) : State := loaded { config16 with overflowPolicy := p } [1101, 32767, 1, 5, 99, 0] []
def productOutState (p : OverflowPolicy) : State :=
  loaded { config16 with overflowPolicy := p } [1102, -32768, -1, 5, 99, 0] []

-- AddWritesTheSum, MultiplyWritesTheProduct, LessThanWritesOneOrZero, EqualsWritesOneOrZero
theorem witness_three_operands : readOperand sumState (sumState.pc + 1) .immediate = .ok 2 ∧
    readOperand sumState (sumState.pc + 2) .immediate = .ok 3 ∧ writeAddress sumState (sumState.pc + 3) = .ok 5 ∧
    isWord sumState.cfg.wordBits (2 + 3) ∧ isWord sumState.cfg.wordBits (2 * 3) := by decide
-- the sum that just reaches WMAX
theorem witness_sum_at_wmax : isWord 16 (32767 + 0) ∧ ¬isWord 16 (32767 + 1) := by decide
-- ArithmeticOutOfRangeFaultsOrWraps, under both policies
theorem witness_sum_out_of_range :
    readOperand (sumOutState .fault) ((sumOutState .fault).pc + 1) .immediate = .ok 32767 ∧
    readOperand (sumOutState .fault) ((sumOutState .fault).pc + 2) .immediate = .ok 1 ∧
    writeAddress (sumOutState .fault) ((sumOutState .fault).pc + 3) = .ok 5 ∧
    ¬isWord (sumOutState .fault).cfg.wordBits (32767 + 1) ∧ (sumOutState .fault).cfg.overflowPolicy = .fault ∧
    (sumOutState .wrap).cfg.overflowPolicy = .wrap := by decide
theorem witness_product_out_of_range :
    readOperand (productOutState .wrap) ((productOutState .wrap).pc + 1) .immediate = .ok (-32768) ∧
    readOperand (productOutState .wrap) ((productOutState .wrap).pc + 2) .immediate = .ok (-1) ∧
    writeAddress (productOutState .wrap) ((productOutState .wrap).pc + 3) = .ok 5 ∧
    ¬isWord (productOutState .wrap).cfg.wordBits (-32768 * -1) ∧
    (productOutState .wrap).cfg.overflowPolicy = .wrap ∧ (productOutState .fault).cfg.overflowPolicy = .fault := by decide
-- WrapIsTwosComplement: the least W, and a value in range
theorem witness_wrap : 1 ≤ 1 ∧ isWord 1 (-1) ∧ wrapWord 1 (-1) = -1 ∧ wrapWord 16 32768 = -32768 := by decide
-- ThreeOperandFaultsInSlotOrder: A11, A10 and A9
theorem witness_first_source_faults :
    readOperand (loaded Config.default [1, 100, 200, 300] []) 1 .position = .error (.outOfBounds 100) ∧
    Instr.add .position .position ∈ [Instr.add .position .position, .multiply .position .position,
      .lessThan .position .position, .equals .position .position] := by decide
theorem witness_second_source_faults : readOperand (loaded Config.default [1101, 1] []) 1 .immediate = .ok 1 ∧
    readOperand (loaded Config.default [1101, 1] []) 2 .immediate = .error (.outOfBounds 2) := by decide
theorem witness_destination_faults : readOperand (loaded Config.default [1101, 1, 1, -1, 99] []) 1 .immediate = .ok 1 ∧
    readOperand (loaded Config.default [1101, 1, 1, -1, 99] []) 2 .immediate = .ok 1 ∧
    writeAddress (loaded Config.default [1101, 1, 1, -1, 99] []) 3 = .error (.outOfBounds (-1)) := by decide
-- ThreeOperandFrame: a next state, and an address that is not the destination
theorem witness_three_operand_frame :
    exec (.lessThan .immediate .immediate) sumState = .next { sumState with mem := sumState.mem.set 5 1, pc := 4 } ∧
    writeAddress sumState (sumState.pc + 3) ≠ .ok 4 := ⟨rfl, by decide⟩
-- InputPopsIntoTheDestination, InputFrame (I1); InputFaultsOnDestinationThenEmptyQueue (I4, I2)
theorem witness_input : writeAddress (loaded Config.default [3, 3, 99, 0] [42]) 1 = .ok 3 ∧
    (loaded Config.default [3, 3, 99, 0] [42]).iq = 42 :: [] ∧
    writeAddress (loaded Config.default [3, 3, 99, 0] [42]) 1 ≠ .ok 0 := by decide
theorem witness_input_frame : ∃ t, exec .input (loaded Config.default [3, 3, 99, 0] [42]) = .next t := ⟨_, rfl⟩
theorem witness_input_destination_faults :
    writeAddress (loaded Config.default [3, 10, 99] []) 1 = .error (.outOfBounds 10) := by decide
theorem witness_input_empty : writeAddress (loaded Config.default [3, 3, 99, 0] []) 1 = .ok 3 ∧
    (loaded Config.default [3, 3, 99, 0] []).iq = [] := by decide
-- OutputAppendsItsOperand (O1, O2), OutputFaultsOnOperandThenFullQueue (O2p, O6), OutputFrame
theorem witness_output_honour : readOperand (loaded Config.default [104, -5, 99] []) 1
      (if Config.default.outputMode = .honour then .immediate else .position) = .ok (-5) ∧
    Config.default.outDepth ≠ some 0 := by decide
theorem witness_output_last_place : readOperand (loaded { Config.default with outDepth := some 1 } [104, 1, 104, 2, 99] []) 1
      (if Config.default.outputMode = .honour then .immediate else .position) = .ok 1 ∧
    ({ Config.default with outDepth := some 1 } : Config).outDepth ≠ some 0 := by decide
theorem witness_output_operand_faults :
    readOperand (loaded { Config.default with outputMode := .position } [104, -5, 99] []) 1
      (if ({ Config.default with outputMode := .position } : Config).outputMode = .honour then .immediate else .position) =
        .error (.outOfBounds (-5)) := by decide
theorem witness_output_full : readOperand (loaded { Config.default with outDepth := some 0 } [104, 1, 99] []) 1
      (if Config.default.outputMode = .honour then .immediate else .position) = .ok 1 ∧
    (loaded { Config.default with outDepth := some 0 } [104, 1, 99] []).cfg.outDepth =
      some (loaded { Config.default with outDepth := some 0 } [104, 1, 99] []).oq.length := by decide
theorem witness_output_frame : ∃ t, exec (.output .immediate) (loaded Config.default [104, -5, 99] []) = .next t := ⟨_, rfl⟩

/-- Vectors J1 to J4: a jump with an immediate condition and target. -/
def jumpState (j : JumpEval) (image : List Int) : State := loaded { Config.default with jumpEval := j } image []

-- JumpIfTrueSetsThePc and JumpIfFalseSetsThePc: taken, untaken, and untaken under Eager with a readable target
theorem witness_jump_nonzero : readOperand (jumpState .lazy [1105, -1, 5, 104, 0, 99]) 1 .immediate = .ok (-1) ∧
    (-1 : Int) ≠ 0 ∧ readOperand (jumpState .lazy [1105, -1, 5, 104, 0, 99]) 2 .immediate = .ok 5 := by decide
theorem witness_jump_zero : readOperand (jumpState .lazy [1106, 0, 5, 104, 0, 99]) 1 .immediate = .ok 0 ∧
    readOperand (jumpState .lazy [1106, 0, 5, 104, 0, 99]) 2 .immediate = .ok 5 := by decide
theorem witness_jump_untaken_lazy : readOperand (jumpState .lazy [5, 6, 100, 104, 1, 99, 0]) 1 .position = .ok 0 ∧
    (jumpState .lazy []).cfg.jumpEval ≠ .eager := by decide
theorem witness_jump_untaken_eager : (jumpState .eager [1105, 0, 5, 104, 0, 99]).cfg.jumpEval = .eager ∧
    readOperand (jumpState .eager [1105, 0, 5, 104, 0, 99]) 1 .immediate = .ok 0 ∧
    readOperand (jumpState .eager [1105, 0, 5, 104, 0, 99]) 2 .immediate = .ok 5 := by decide
-- JumpFaultsOnConditionThenTarget (F6, J5e and a taken jump to an unreadable target)
theorem witness_jump_condition_faults : readOperand (jumpState .lazy [5]) 1 .position = .error (.outOfBounds 1) := by decide
theorem witness_jump_target_faults_eager : readOperand (jumpState .eager [5, 6, 100, 104, 1, 99, 0]) 1 .position = .ok 0 ∧
    readOperand (jumpState .eager [5, 6, 100, 104, 1, 99, 0]) 2 .position = .error (.outOfBounds 100) ∧
    (jumpState .eager []).cfg.jumpEval = .eager := by decide
theorem witness_jump_target_faults_taken : readOperand (jumpState .lazy [105, 1, 100]) 1 .immediate = .ok 1 ∧
    readOperand (jumpState .lazy [105, 1, 100]) 2 .position = .error (.outOfBounds 100) ∧ (1 : Int) ≠ 0 := by decide
-- JumpFrame
theorem witness_jump_frame : ∃ t, exec (.jumpIfFalse .immediate .immediate) (jumpState .lazy [1106, 0, 5]) = .next t :=
  ⟨_, rfl⟩
-- OutOfRangeJumpFaultsAtTheNextFetch: J6 (negative), the first address past the end, and a Jump-if-false
theorem witness_jump_out_of_range_true : (jumpState .lazy [1105, 1, -1]).rs = .running ∧
    (jumpState .lazy [1105, 1, -1]).cfg.stepLimit = none ∧ memRead (jumpState .lazy [1105, 1, -1]) 0 = .ok 1105 ∧
    decode Config.default 1105 = .ok (.jumpIfTrue .immediate .immediate) ∧ (1 : Int) ≠ 0 ∧
    readOperand (jumpState .lazy [1105, 1, -1]) 1 .immediate = .ok 1 ∧
    readOperand (jumpState .lazy [1105, 1, -1]) 2 .immediate = .ok (-1) ∧ ¬((0 : Int) ≤ -1 ∧ (-1 : Int) < 3) := by decide
theorem witness_jump_out_of_range_false : memRead (jumpState .lazy [1106, 0, 3]) 0 = .ok 1106 ∧
    decode Config.default 1106 = .ok (.jumpIfFalse .immediate .immediate) ∧
    readOperand (jumpState .lazy [1106, 0, 3]) 1 .immediate = .ok 0 ∧
    readOperand (jumpState .lazy [1106, 0, 3]) 2 .immediate = .ok 3 ∧
    ¬((0 : Int) ≤ 3 ∧ (3 : Int) < ((jumpState .lazy [1106, 0, 3]).mem.len : Int)) := by decide
-- JumpWhoseTargetSlotIsPastTheEnd: J13 and J13e, and the condition 0
theorem witness_jump_at_the_end : (jumpState .lazy [1106, 1]).pc + 2 = ((jumpState .lazy [1106, 1]).mem.len : Int) ∧
    readOperand (jumpState .lazy [1106, 1]) 1 .immediate = .ok 1 ∧ (1 : Int) ≠ 0 ∧
    (jumpState .lazy [1106, 1]).cfg.jumpEval = .lazy := by decide
theorem witness_jump_at_the_end_zero : (jumpState .eager [1105, 0]).pc + 2 = ((jumpState .eager [1105, 0]).mem.len : Int) ∧
    readOperand (jumpState .eager [1105, 0]) 1 .immediate = .ok 0 ∧ (jumpState .eager [1105, 0]).cfg.jumpEval = .eager := by
  decide
-- SelfLoopNeverEnds: J12, and the other kind of jump
theorem witness_self_loop_false : (jumpState .eager [1106, 0, 0]).rs = .running ∧
    (jumpState .eager [1106, 0, 0]).cfg.stepLimit = none ∧ memRead (jumpState .eager [1106, 0, 0]) 0 = .ok 1106 ∧
    decode (jumpState .eager [1106, 0, 0]).cfg 1106 = .ok (.jumpIfFalse .immediate .immediate) ∧
    readOperand (jumpState .eager [1106, 0, 0]) 1 .immediate = .ok 0 ∧
    readOperand (jumpState .eager [1106, 0, 0]) 2 .immediate = .ok (jumpState .eager [1106, 0, 0]).pc := by decide
theorem witness_self_loop : (jumpState .lazy [1105, 1, 0]).rs = .running ∧
    (jumpState .lazy [1105, 1, 0]).cfg.stepLimit = none ∧ memRead (jumpState .lazy [1105, 1, 0]) 0 = .ok 1105 ∧
    decode (jumpState .lazy [1105, 1, 0]).cfg 1105 = .ok (.jumpIfTrue .immediate .immediate) ∧
    readOperand (jumpState .lazy [1105, 1, 0]) 1 .immediate = .ok 1 ∧ (1 : Int) ≠ 0 ∧
    readOperand (jumpState .lazy [1105, 1, 0]) 2 .immediate = .ok (jumpState .lazy [1105, 1, 0]).pc := by decide

-- StepRunsTheDecodedInstruction: with and without SC
theorem witness_step : (loaded Config.default [99] []).rs = .running ∧ Config.default.stepLimit ≠ some 0 ∧
    memRead (loaded Config.default [99] []) 0 = .ok 99 ∧ decode Config.default 99 = .ok .halt := by decide
theorem witness_step_counted : ({ Config.default with stepLimit := some 1 } : Config).stepLimit ≠ some 0 ∧
    (after (loaded { Config.default with stepLimit := some 1 } [99] [])).sc = 1 := by decide
-- FaultsBeforeDispatch: F5, a pc at L, F3
theorem witness_ceiling : (loaded { Config.default with stepLimit := some 0 } [99] []).cfg.stepLimit =
    some (loaded { Config.default with stepLimit := some 0 } [99] []).sc := by decide
theorem witness_fetch_at_the_end : Config.default.stepLimit ≠ some 0 ∧
    ¬((0 : Int) ≤ 1 ∧ (1 : Int) < ((loaded Config.default [99] []).mem.len : Int)) := by decide
theorem witness_fetch_illegal : memRead (loaded Config.default [98] []) 0 = .ok 98 ∧
    decode Config.default 98 = .error (.invalidOpcode 98) := by decide
-- StepsExactlyWhileRunning: both sides
theorem witness_running : (∃ t, step (loaded Config.default [99] []) = .next t) ∧
    (loaded Config.default [99] []).rs = .running := ⟨⟨_, rfl⟩, rfl⟩
-- FaultsArePrecise and FaultsOnlyForTheirCause: a step for every fault kind
theorem witness_invalid_opcode : step (loaded Config.default [98] []) =
    .next ((loaded Config.default [98] []).raise (.invalidOpcode 98)) := rfl
theorem witness_invalid_mode : step (loaded Config.default [201] []) =
    .next ((loaded Config.default [201] []).raise (.invalidParameterMode 2)) := rfl
theorem witness_invalid_mode_negative : step (loaded alwaysConfig [-101] []) =
    .next ((loaded alwaysConfig [-101] []).raise (.invalidParameterMode (-1))) := rfl
theorem witness_out_of_bounds : step (loaded Config.default [1101, 1] []) =
    .next ((loaded Config.default [1101, 1] []).raise (.outOfBounds 2)) := rfl
theorem witness_out_of_bounds_fetch : step (loaded Config.default [] []) =
    .next ((loaded Config.default [] []).raise (.outOfBounds 0)) := rfl
theorem witness_out_of_bounds_pointee : step (loaded Config.default [1, -1, 0, 0] []) =
    .next ((loaded Config.default [1, -1, 0, 0] []).raise (.outOfBounds (-1))) := rfl
theorem witness_out_of_bounds_destination : step (loaded Config.default [1101, -1, 9, 4] []) =
    .next ((loaded Config.default [1101, -1, 9, 4] []).raise (.outOfBounds 4)) := rfl
theorem witness_out_of_bounds_target : step (jumpState .eager [105, 0, 3]) =
    .next ((jumpState .eager [105, 0, 3]).raise (.outOfBounds 3)) := rfl
theorem witness_input_exhausted : step (loaded Config.default [3, 3, 99, 0] []) =
    .next ((loaded Config.default [3, 3, 99, 0] []).raise .inputExhausted) := rfl
theorem witness_arithmetic_overflow : step (sumOutState .fault) = .next ((sumOutState .fault).raise .arithmeticOverflow) := rfl
theorem witness_product_overflow : step (productOutState .fault) =
    .next ((productOutState .fault).raise .arithmeticOverflow) := rfl
theorem witness_output_overflow : step (loaded { Config.default with outDepth := some 0 } [104, 1, 99] []) =
    .next ((loaded { Config.default with outDepth := some 0 } [104, 1, 99] []).raise .outputOverflow) := rfl
theorem witness_step_limit : step (loaded { Config.default with stepLimit := some 0 } [99] []) =
    .next ((loaded { Config.default with stepLimit := some 0 } [99] []).raise .stepLimitExceeded) := rfl
-- StepCounterCountsCompletedSteps, OnlyDestinationsAreWritten, FifosMoveInProgramOrder, EveryStepKeepsTheInvariant
theorem witness_step_of_add : step sumState = .next { sumState with mem := sumState.mem.set 5 5, pc := 4 } := rfl
theorem witness_written_cell : memRead (after sumState) 5 ≠ memRead sumState 5 := by decide
theorem witness_step_of_input : fetchDecode (loaded Config.default [3, 3, 99, 0] [42]) = .ok .input ∧
    (after (loaded Config.default [3, 3, 99, 0] [42])).rs.isFaulted = false := by decide
theorem witness_step_of_output : fetchDecode (loaded Config.default [104, -5, 99] []) = .ok (.output .immediate) ∧
    (after (loaded Config.default [104, -5, 99] [])).rs.isFaulted = false := by decide
theorem witness_invariant : sumState.inv := by decide
-- PcMovesOnceAtTheEnd: a fault, a jump, a halt and an advance
theorem witness_pc_fault : sumState.rs = .running ∧ ((sumOutState .fault).raise .arithmeticOverflow).rs.isFaulted = true ∧
    exec (.add .immediate .immediate) (sumOutState .fault) = .next ((sumOutState .fault).raise .arithmeticOverflow) :=
  ⟨rfl, rfl, rfl⟩
theorem witness_pc_jump : exec (.jumpIfTrue .immediate .immediate) (jumpState .lazy [1105, 1, 5]) =
    .next { jumpState .lazy [1105, 1, 5] with pc := 5 } := rfl
theorem witness_pc_halt : exec .halt sumState = .next { sumState with rs := .halted } := rfl
theorem witness_pc_advance : Instr.format .input ≠ .f2s ∧ Instr.format .input ≠ .f0 ∧
    (after (loaded Config.default [3, 3, 99, 0] [42])).pc = 2 := by decide

/-- Vector A6: an Add that writes the Halt that runs next. -/
def selfWriter : State := loaded Config.default [1101, 0, 99, 4, 0] []

-- NextFetchSeesTheWrite
theorem witness_self_write : selfWriter.rs = .running ∧ selfWriter.cfg.stepLimit = none ∧
    memRead selfWriter selfWriter.pc = .ok 1101 ∧ decode selfWriter.cfg 1101 = .ok (.add .immediate .immediate) ∧
    readOperand selfWriter (selfWriter.pc + 1) .immediate = .ok 0 ∧
    readOperand selfWriter (selfWriter.pc + 2) .immediate = .ok 99 ∧
    writeAddress selfWriter (selfWriter.pc + 3) = .ok (selfWriter.pc + 4) ∧ (0 : Int) + 99 = encode .halt ∧
    isWord selfWriter.cfg.wordBits (0 + 99) := by decide
-- AcceptedLoadEstablishesTheInvariant, LoadSetsEveryPieceOfState
theorem witness_load : config16.wf ∧ loadImage config16 [1, -32768, 32767] [5] =
    some (loaded config16 [1, -32768, 32767] [5]) ∧ loadable config16 [1, -32768, 32767] [5] := by decide
theorem witness_load_refused_length : [1, 2, 3].length > ({ config16 with memMax := 2 } : Config).memMax := by decide
theorem witness_load_refused_image : ∃ v ∈ [(32768 : Int)], ¬isWord config16.wordBits v := ⟨32768, by decide, by decide⟩
theorem witness_load_refused_input : ∃ v ∈ [(-32769 : Int)], ¬isWord config16.wordBits v := ⟨-32769, by decide, by decide⟩
-- EveryReachableStateKeepsItsHistory
theorem witness_reaches : sumState.inv ∧ Reaches sumState { sumState with mem := sumState.mem.set 5 5, pc := 4 } :=
  ⟨witness_invariant, .next .start witness_step_of_add⟩
-- NoInstructionReadsTheOutputFifo
theorem witness_outputs_unbounded : (loaded Config.default [104, -5, 99] []).cfg.outDepth = none ∧
    ∃ t, step (loaded Config.default [104, -5, 99] []) = .next t := ⟨rfl, _, rfl⟩
-- FinalMemoryListsTheCells: the length, the first and the last address
theorem witness_final_memory_length : (loaded Config.default [7, 0, 0] []).mem.toImage.length = 3 := by decide
theorem witness_final_memory : 0 < (loaded Config.default [7, 0, 8] []).mem.toImage.length ∧
    2 < (loaded Config.default [7, 0, 8] []).mem.toImage.length := by decide
-- StatusViewOfTheRunState, HostSeesResultsOnlyAtTheEnd: a state for every run state
theorem witness_run_states : State.reset.rs = .running ∧ State.reset.halted.rs = .halted ∧
    [FaultRecord.invalidOpcode 98, .invalidParameterMode 2, .outOfBounds (-1), .inputExhausted, .arithmeticOverflow,
      .outputOverflow, .stepLimitExceeded].map (fun f => (State.reset.raise f).rs) =
    [.faulted (.invalidOpcode 98), .faulted (.invalidParameterMode 2), .faulted (.outOfBounds (-1)),
      .faulted .inputExhausted, .faulted .arithmeticOverflow, .faulted .outputOverflow,
      .faulted .stepLimitExceeded] := by decide
-- PlacedInstructionIsTheNextOneFetched: a state that is halted, past its ceiling and with a negative pc
theorem witness_placed : decode Config.default (wordOfBits 64 (1101 % 2 ^ 32)) = .ok (.add .immediate .immediate) ∧
    fetchDecode (State.withFetchWord { loaded { Config.default with stepLimit := some 0 } [] [] with pc := -1, rs := .halted }
      32 1101) = .ok (.add .immediate .immediate) := by decide

end Sys2Proof.Tests
end

section
/-! The statements of 00_scope: the words the machine computes, the two memory primitives, and the invariant that every
step keeps. The invariant is proved from one rule per update of the state (`State.inv_raise`, `State.inv_advance`,
`State.inv_set`, ...), then one rule per instruction format, then the step. -/

namespace Sys2Proof

/-! ### Words (00_scope R6, R8) -/

theorem wmin_le_zero (W : Nat) : wmin W ≤ 0 := by
  have : (0 : Int) ≤ 2 ^ (W - 1) := by positivity
  unfold wmin
  omega

/-- The margin of R8: under legal parameters every number up to MEM_MAX + 3 is a word. -/
theorem Config.wf.isWord_of_le {c : Config} (hc : c.wf) {v : Int} (h0 : 0 ≤ v) (h : v ≤ (c.memMax : Int) + 3) :
    isWord c.wordBits v :=
  ⟨(wmin_le_zero _).trans h0, by omega⟩

namespace Machine

/-- Wrapping lands in the word range (41_arithmetic R98), at every width. -/
theorem isWord_wrapWord (W : Nat) (v : Int) : isWord W (wrapWord W v) := by
  have hlow : 0 ≤ (v - wmin W) % 2 ^ W := Int.emod_nonneg _ (by positivity)
  have hhigh : (v - wmin W) % 2 ^ W < 2 ^ W := Int.emod_lt_of_pos _ (by positivity)
  have hsize : (2 : Int) ^ W ≤ 2 * 2 ^ (W - 1) := by
    cases W with
    | zero => norm_num
    | succ n => rw [Nat.add_sub_cancel, pow_succ, mul_comm]
  simp only [isWord, wrapWord, wmax, wmin] at *
  omega

/-- Whatever the range rule lets pass is a word (41_arithmetic R98). -/
theorem isWord_of_rangeResult {c : Config} {x v : Int} (h : rangeResult c x = .ok v) : isWord c.wordBits v := by
  rcases rangeResult_eq_ok_iff.1 h with ⟨hx, rfl⟩ | ⟨-, -, rfl⟩
  · exact hx
  · exact isWord_wrapWord _ _

/-- The outcome of a comparison is a word (44_compare R117). -/
theorem isWord_truthWord {c : Config} (hc : c.wf) (b : Bool) : isWord c.wordBits (truthWord b) := by
  cases b
  · exact hc.isWord_of_le (v := 0) le_rfl (by omega)
  · exact hc.isWord_of_le (v := 1) zero_le_one (by omega)

/-! ### What a state that meets the invariant reads -/

theorem State.inv.isWord_get {s : State} (hs : s.inv) (a : Nat) : isWord s.cfg.wordBits (s.mem.get a) := by
  obtain ⟨hwf, ⟨-, -, hcells⟩, -⟩ := hs
  rcases lookupCell_mem s.mem.cells a with h | h
  · rw [Memory.get, h]
    exact hwf.isWord_of_le le_rfl (by omega)
  · exact hcells _ h

theorem State.inv.isWord_of_memRead {s : State} (hs : s.inv) {a v : Int} (h : memRead s a = .ok v) :
    isWord s.cfg.wordBits v := by
  obtain ⟨-, rfl⟩ := memRead_eq_ok_iff.1 h
  exact hs.isWord_get _

theorem State.inv.isWord_of_readOperand {s : State} (hs : s.inv) {slot v : Int} {m : Mode}
    (h : readOperand s slot m = .ok v) : isWord s.cfg.wordBits v := by
  obtain ⟨r, hr, ⟨-, rfl⟩ | ⟨-, hv⟩⟩ := readOperand_eq_ok_iff.1 h
  · exact hs.isWord_of_memRead hr
  · exact hs.isWord_of_memRead hv

/-! ### The invariant under each update of the state -/

theorem State.inv_raise {s : State} (hs : s.inv) (f : FaultRecord) : (s.raise f).inv := hs

theorem State.inv_halted {s : State} (hs : s.inv) : s.halted.inv := hs

theorem State.inv_jumpTo {s : State} (hs : s.inv) {t : Int} (ht : isWord s.cfg.wordBits t) : (s.jumpTo t).inv := by
  obtain ⟨hwf, hmem, -, hfifo, hsc⟩ := hs
  exact ⟨hwf, hmem, ht, hfifo, hsc⟩

/-- From a fetched address no instruction's length leads out of the word range: this is what R8's margin is for. -/
theorem State.inv_advance {s : State} (hs : s.inv) (hpc : s.mem.inBounds s.pc) {n : Int} (h0 : 0 ≤ n) (h4 : n ≤ 4) :
    (s.advance n).inv := by
  have ⟨hwf, ⟨_, hlen, _⟩, _⟩ := hs
  exact inv_jumpTo hs (hwf.isWord_of_le (by omega) (by omega))

theorem State.inv_set {s : State} (hs : s.inv) {d v : Int} (hd : s.mem.inBounds d) (hv : isWord s.cfg.wordBits v) :
    State.inv { s with mem := s.mem.set d.toNat v } := by
  obtain ⟨hwf, ⟨hcanon, hlen, hcells⟩, hrest⟩ := hs
  refine ⟨hwf, ⟨Memory.wf_set v (by omega) hcanon, hlen, fun c hc => ?_⟩, hrest⟩
  rcases Memory.mem_cells_set hc with rfl | hc
  · exact hv
  · exact hcells c hc

theorem State.inv_dropInput {s : State} (hs : s.inv) {v : Int} {rest : List Int} (hq : s.iq = v :: rest) :
    State.inv { s with iq := rest } := by
  obtain ⟨hwf, hmem, hpc, ⟨hiq, hoq⟩, hsc⟩ := hs
  exact ⟨hwf, hmem, hpc, ⟨fun u hu => hiq u (hq ▸ List.mem_cons_of_mem v hu), hoq⟩, hsc⟩

theorem State.inv_appendOutput {s : State} (hs : s.inv) {v : Int} (hv : isWord s.cfg.wordBits v)
    (hroom : s.cfg.outDepth ≠ some s.oq.length) : State.inv { s with oq := s.oq ++ [v] } := by
  obtain ⟨hwf, hmem, hpc, ⟨hiq, hoq, hdepth⟩, hsc⟩ := hs
  refine ⟨hwf, hmem, hpc, ⟨hiq, fun u hu => ?_, fun n hn => ?_⟩, hsc⟩
  · rcases List.mem_append.1 hu with hu | hu
    · exact hoq u hu
    · exact List.mem_singleton.1 hu ▸ hv
  · have hne : s.oq.length ≠ n := fun h => hroom (h ▸ hn)
    have hle := hdepth n hn
    simp only [List.length_append, List.length_singleton]
    omega

/-- A step is counted only below the ceiling (40_execution_cycle R76, R88). -/
theorem State.inv_countStep {s : State} (hs : s.inv) (hbelow : s.cfg.stepLimit ≠ some s.sc) : s.countStep.inv := by
  obtain ⟨hwf, hmem, hpc, hfifo, hsc⟩ := hs
  cases hlim : s.cfg.stepLimit with
  | none => simpa only [State.countStep, hlim] using ⟨hwf, hmem, hpc, hfifo, hsc⟩
  | some n =>
    have hcount : s.sc + 1 ≤ n :=
      Nat.lt_of_le_of_ne (hsc n hlim) fun h => hbelow (h ▸ hlim)
    simp only [State.countStep, hlim]
    refine ⟨hwf, hmem, hpc, hfifo, fun m hm => ?_⟩
    obtain rfl : n = m := Option.some.inj (hlim.symm.trans hm)
    exact hcount

/-! ### The invariant under each instruction format -/

section

variable {s t : State} {m1 m2 : Mode}

theorem threeOperand_inv {result : Int → Int → Except FaultRecord Int} (hs : s.inv) (hpc : s.mem.inBounds s.pc)
    (hword : ∀ a b v, result a b = .ok v → isWord s.cfg.wordBits v) (h : threeOperand s m1 m2 result = .ok t) :
    t.inv := by
  obtain ⟨a, b, d, v, -, -, hd, hv, rfl⟩ := threeOperand_eq_ok_iff.1 h
  have hwrite := State.inv_set hs (writeAddress_eq_ok_iff.1 hd).2 (hword a b v hv)
  exact State.inv_advance hwrite hpc (n := 4) (by omega) le_rfl

theorem conditionalJump_inv {taken : Int → Bool} (hs : s.inv) (hpc : s.mem.inBounds s.pc)
    (h : conditionalJump s m1 m2 taken = .ok t) : t.inv := by
  obtain ⟨c, -, ⟨-, x, hx, rfl⟩ | ⟨-, -, rfl⟩⟩ := conditionalJump_eq_ok_iff.1 h
  · exact State.inv_jumpTo hs (hs.isWord_of_readOperand hx)
  · exact State.inv_advance hs hpc (by omega) (by omega)

theorem inputResult_inv (hs : s.inv) (hpc : s.mem.inBounds s.pc) (h : inputResult s = .ok t) : t.inv := by
  obtain ⟨d, v, rest, hd, hq, rfl⟩ := inputResult_eq_ok_iff.1 h
  have ⟨_, _, _, ⟨hiq, _⟩, _⟩ := hs
  have hv : isWord s.cfg.wordBits v := hiq v (hq ▸ List.mem_cons_self)
  have hwrite := State.inv_set (State.inv_dropInput hs hq) (writeAddress_eq_ok_iff.1 hd).2 hv
  exact State.inv_advance hwrite hpc (n := 2) (by omega) (by omega)

theorem outputResult_inv (hs : s.inv) (hpc : s.mem.inBounds s.pc) (h : outputResult s m1 = .ok t) : t.inv := by
  obtain ⟨v, hv, hroom, rfl⟩ := outputResult_eq_ok_iff.1 h
  have hpush := State.inv_appendOutput hs (hs.isWord_of_readOperand hv) hroom
  exact State.inv_advance hpush hpc (n := 2) (by omega) (by omega)

end

/-- An instruction that completes, at an address that was fetched, keeps the invariant. -/
theorem courseOf_inv {i : Instr} {s t : State} (hs : s.inv) (hpc : s.mem.inBounds s.pc) (h : courseOf i s = .ok t) :
    t.inv := by
  have ⟨hwf, _⟩ := hs
  have hbool : ∀ (p : Bool) (v : Int), (.ok (truthWord p) : Except FaultRecord Int) = .ok v →
      isWord s.cfg.wordBits v := fun p v hv => Except.ok.inj hv ▸ isWord_truthWord hwf p
  cases i with
  | add m1 m2 => exact threeOperand_inv hs hpc (fun _ _ _ => isWord_of_rangeResult) h
  | multiply m1 m2 => exact threeOperand_inv hs hpc (fun _ _ _ => isWord_of_rangeResult) h
  | input => exact inputResult_inv hs hpc h
  | output m1 => exact outputResult_inv hs hpc h
  | jumpIfTrue m1 m2 => exact conditionalJump_inv hs hpc h
  | jumpIfFalse m1 m2 => exact conditionalJump_inv hs hpc h
  | lessThan m1 m2 => exact threeOperand_inv hs hpc (fun _ _ _ => hbool _ _) h
  | equals m1 m2 => exact threeOperand_inv hs hpc (fun _ _ _ => hbool _ _) h
  | halt => exact Except.ok.inj h ▸ State.inv_halted hs

/-- The step lemma of the invariant. -/
theorem step_inv {s t : State} (hs : s.inv) (h : step s = .next t) : t.inv := by
  obtain ⟨-, ⟨f, rfl, -⟩ | ⟨i, u, hfetch, hcourse, rfl⟩⟩ := step_eq_next_iff.1 h
  · exact State.inv_raise hs f
  · obtain ⟨hbelow, w, hw, -⟩ := fetchDecode_eq_ok_iff.1 hfetch
    have hpc : s.mem.inBounds s.pc := (memRead_eq_ok_iff.1 hw).1
    obtain ⟨hcfg, -, hsc, -⟩ := courseOf_ok_frame hcourse
    exact State.inv_countStep (courseOf_inv hs hpc hcourse) (by rw [hcfg, hsc]; exact hbelow)

/-! ### The memory primitives (00_scope R16) -/

theorem memRead_of_inBounds {s : State} {a : Int} (h : s.mem.inBounds a) : memRead s a = .ok (s.mem.get a.toNat) :=
  memRead_eq_ok_iff.2 ⟨h, rfl⟩

theorem memWrite_of_inBounds {s : State} {a : Int} (v : Int) (h : s.mem.inBounds a) :
    memWrite s a v = .ok { s with mem := s.mem.set a.toNat v } :=
  memWrite_eq_ok_iff.2 ⟨h, rfl⟩

/-- A read of the address just written gives the written word. -/
theorem memRead_set_same {s : State} {a : Int} (v : Int) (h : s.mem.inBounds a) :
    memRead { s with mem := s.mem.set a.toNat v } a = .ok v :=
  memRead_eq_ok_iff.2 ⟨h, Memory.get_set_same _ _ _⟩

end Machine

/-! ### The obligations -/

open Machine

/-- Settles O45: a faulting step changes RS alone, and a completed instruction keeps the invariant (`courseOf_inv`)
before it is counted below the ceiling. -/
theorem everyStepKeepsTheInvariant : Obligations.EveryStepKeepsTheInvariant :=
  fun _ _ => step_inv

/-- Settles O11, from the read-after-write rules of the memory. -/
theorem memoryPrimitivesReadAndReplaceOneCell : Obligations.MemoryPrimitivesReadAndReplaceOneCell := by
  intro s a v
  constructor
  · intro ha
    refine ⟨memRead_of_inBounds ha, _, memWrite_of_inBounds v ha, rfl, rfl, memRead_set_same v ha, fun b hb => ?_⟩
    exact memRead_set_other ha.1 rfl hb
  · intro ha
    exact ⟨memRead_eq_error_iff.2 ⟨ha, rfl⟩, memWrite_eq_error_iff.2 ⟨ha, rfl⟩⟩

/-- Settles O1: the quotient and the remainder are the library's truncating ones (`trem_eq_tmod`), and the remainder of
`-a` is that of `a` negated. -/
theorem truncatingDivisionAndRemainder : Obligations.TruncatingDivisionAndRemainder := by
  intro a b
  rw [trem_eq_tmod, tdiv]
  refine ⟨(Int.mul_tdiv_add_tmod a b).symm, Int.tmod_nonneg b, fun ha => ?_, fun hb => ?_, fun ha _ => ?_⟩
  · have hneg : 0 ≤ (-a).tmod b := Int.tmod_nonneg b (neg_nonneg.2 ha)
    rw [Int.neg_tmod] at hneg
    exact neg_nonneg.1 hneg
  · have hlt : (a.tmod b).natAbs < b.natAbs := by
      rw [Int.natAbs_tmod]
      exact Nat.mod_lt _ (Int.natAbs_pos.2 hb)
    rw [Int.abs_eq_natAbs, Int.abs_eq_natAbs]
    exact_mod_cast hlt
  · exact ⟨Int.tdiv_eq_ediv_of_nonneg ha, Int.tmod_eq_emod_of_nonneg ha⟩

/-- Settles O57: the six defaults stand in `Config.default`, and its MEM_MAX is WMAX - 3 of 64 bits, the largest that R8
allows. -/
theorem resetCarriesTheDefaultParameters : Obligations.ResetCarriesTheDefaultParameters := by
  have hmargin : Config.default.wf := by decide
  exact ⟨rfl, rfl, rfl, rfl, rfl, rfl, hmargin⟩

end Sys2Proof
end

section
/-! The statements of 10_state: what each instruction leaves unchanged, what every run keeps, what a load sets, and the
STATUS view. An instruction that completes does one of five things, one per format (`Completes`); the frames, the
history of a run and the place of a write are read off that. That OQ is never read is one commuting law: older outputs
may be put in front of OQ before the step or after it (`step_prependOutputs`). -/

namespace Sys2Proof.Machine

/-! ### What completing an instruction does, format by format (10_state R31) -/

/-- The states in which an instruction of a format can complete, with how each differs from the state before. -/
inductive Completes (s : State) : Format → State → Prop where
  | f3s {d v : Int} (hd : writeAddress s (s.pc + 3) = .ok d) :
      Completes s .f3s { s with mem := s.mem.set d.toNat v, pc := s.pc + 4 }
  | fd {d v : Int} {rest : List Int} (hd : writeAddress s (s.pc + 1) = .ok d) (hq : s.iq = v :: rest) :
      Completes s .fd { s with mem := s.mem.set d.toNat v, iq := rest, pc := s.pc + 2 }
  | fs {v : Int} : Completes s .fs { s with oq := s.oq ++ [v], pc := s.pc + 2 }
  | f2s {x : Int} : Completes s .f2s (s.jumpTo x)
  | f0 : Completes s .f0 s.halted

theorem threeOperand_completes {s t : State} {m1 m2 : Mode} {result : Int → Int → Except FaultRecord Int}
    (h : threeOperand s m1 m2 result = .ok t) : Completes s .f3s t := by
  obtain ⟨a, b, d, v, -, -, hd, -, rfl⟩ := threeOperand_eq_ok_iff.1 h
  exact .f3s hd

/-- Taken or not, a jump that completes only sets pc. -/
theorem conditionalJump_completes {s t : State} {m1 m2 : Mode} {taken : Int → Bool}
    (h : conditionalJump s m1 m2 taken = .ok t) : Completes s .f2s t := by
  obtain ⟨c, -, ⟨-, x, -, rfl⟩ | ⟨-, -, rfl⟩⟩ := conditionalJump_eq_ok_iff.1 h
  · exact .f2s
  · exact .f2s (x := s.pc + 3)

/-- `Completes` says what the model's instructions do. -/
theorem courseOf_completes {i : Instr} {s t : State} (h : courseOf i s = .ok t) : Completes s i.format t := by
  cases i with
  | add m1 m2 => exact threeOperand_completes h
  | multiply m1 m2 => exact threeOperand_completes h
  | input =>
    obtain ⟨d, v, rest, hd, hq, rfl⟩ := inputResult_eq_ok_iff.1 h
    exact .fd hd hq
  | output m1 =>
    obtain ⟨v, -, -, rfl⟩ := outputResult_eq_ok_iff.1 h
    exact .fs
  | jumpIfTrue m1 m2 => exact conditionalJump_completes h
  | jumpIfFalse m1 m2 => exact conditionalJump_completes h
  | lessThan m1 m2 => exact threeOperand_completes h
  | equals m1 m2 => exact threeOperand_completes h
  | halt => exact Except.ok.inj h ▸ .f0

/-- Everything `exec` can answer, in those terms: the instruction completes, or its fault is taken. -/
theorem exec_next_cases {i : Instr} {s t : State} (h : exec i s = .next t) :
    Completes s i.format t ∨ ∃ f, t = s.raise f := by
  rcases exec_eq_next_iff.1 h with hok | ⟨f, -, rfl⟩
  · exact .inl (courseOf_completes hok)
  · exact .inr ⟨f, rfl⟩

/-- An instruction that completes from RS = Running leaves no fault. -/
theorem courseOf_ok_not_faulted {i : Instr} {s t : State} (hs : s.rs = .running) (h : courseOf i s = .ok t) :
    t.rs.isFaulted = false := by
  obtain ⟨-, -, -, hrs | hrs⟩ := courseOf_ok_frame h
  · rw [hrs, hs]; rfl
  · rw [hrs]; rfl

/-! ### The one cell a write can change (10_state R22) -/

/-- A write to a resolved destination leaves every other address as it was. -/
theorem memRead_off_destination {s t : State} {slot d v : Int} (hd : writeAddress s slot = .ok d)
    (ht : t.mem = s.mem.set d.toNat v) {a : Int} (ha : writeAddress s slot ≠ .ok a) : memRead t a = memRead s a := by
  have hne : a ≠ d := fun h => ha (h ▸ hd)
  have hbounds : s.mem.inBounds d := (writeAddress_eq_ok_iff.1 hd).2
  exact memRead_set_other hbounds.1 ht hne

/-- A cell that changes is the destination of a format that has one. -/
theorem Completes.changed_cell {s t : State} {fmt : Format} {a : Int} (h : Completes s fmt t)
    (ha : memRead t a ≠ memRead s a) :
    (fmt = .f3s ∧ writeAddress s (s.pc + 3) = .ok a) ∨ (fmt = .fd ∧ writeAddress s (s.pc + 1) = .ok a) := by
  cases h with
  | f3s hd => exact .inl ⟨rfl, not_not.1 fun hne => ha (memRead_off_destination hd rfl hne)⟩
  | fd hd hq => exact .inr ⟨rfl, not_not.1 fun hne => ha (memRead_off_destination hd rfl hne)⟩
  | fs => exact absurd rfl ha
  | f2s => exact absurd rfl ha
  | f0 => exact absurd rfl ha

/-! ### The history of a run (10_state R21, R27, R28) -/

/-- What no later state of a run undoes: the parameters and L stay, IQ is used up from its front and OQ grows at its
back. -/
structure State.KeepsHistory (s t : State) : Prop where
  cfg : t.cfg = s.cfg
  len : t.mem.len = s.mem.len
  iq : t.iq <:+ s.iq
  oq : s.oq <+: t.oq

theorem State.KeepsHistory.refl (s : State) : s.KeepsHistory s :=
  ⟨rfl, rfl, List.suffix_rfl, List.prefix_rfl⟩

theorem State.KeepsHistory.trans {s t u : State} (hst : s.KeepsHistory t) (htu : t.KeepsHistory u) :
    s.KeepsHistory u :=
  ⟨htu.cfg.trans hst.cfg, htu.len.trans hst.len, htu.iq.trans hst.iq, hst.oq.trans htu.oq⟩

theorem Completes.keepsHistory {s t : State} {fmt : Format} (h : Completes s fmt t) : s.KeepsHistory t := by
  cases h with
  | @fd d v rest hd hq => exact ⟨rfl, rfl, ⟨[v], hq.symm⟩, List.prefix_rfl⟩
  | fs => exact ⟨rfl, rfl, List.suffix_rfl, List.prefix_append _ _⟩
  | f3s | f2s | f0 => exact ⟨rfl, rfl, List.suffix_rfl, List.prefix_rfl⟩

theorem step_keepsHistory {s t : State} (h : step s = .next t) : s.KeepsHistory t := by
  obtain ⟨-, ⟨f, rfl, -⟩ | ⟨i, u, -, hcourse, rfl⟩⟩ := step_eq_next_iff.1 h
  · exact ⟨rfl, rfl, List.suffix_rfl, List.prefix_rfl⟩
  · have hu := (courseOf_completes hcourse).keepsHistory
    exact ⟨by simpa using hu.cfg, by simpa using hu.len, by simpa using hu.iq, by simpa using hu.oq⟩

/-- The induction over runs: what holds at the start and is kept by every step holds all along. -/
theorem Reaches.preserves {P : State → Prop} {s t : State} (h : Reaches s t) (hstart : P s)
    (hstep : ∀ t u, P t → step t = .next u → P u) : P t := by
  induction h with
  | start => exact hstart
  | next _ hnext ih => exact hstep _ _ ih hnext

/-! ### OQ is never read (10_state R28) -/

/-- The state with older outputs in front of OQ. -/
def State.prependOutputs (o : List Int) (s : State) : State := { s with oq := o ++ s.oq }

section

variable (o : List Int) (s : State)

@[simp] theorem State.prependOutputs_cfg : (s.prependOutputs o).cfg = s.cfg := rfl
@[simp] theorem State.prependOutputs_pc : (s.prependOutputs o).pc = s.pc := rfl
@[simp] theorem State.prependOutputs_rs : (s.prependOutputs o).rs = s.rs := rfl
@[simp] theorem State.prependOutputs_oq : (s.prependOutputs o).oq = o ++ s.oq := rfl

theorem State.prependOutputs_advance (n : Int) :
    (s.prependOutputs o).advance n = (s.advance n).prependOutputs o := rfl

theorem State.prependOutputs_jumpTo (x : Int) :
    (s.prependOutputs o).jumpTo x = (s.jumpTo x).prependOutputs o := rfl

theorem State.prependOutputs_countStep : (s.prependOutputs o).countStep = s.countStep.prependOutputs o := by
  unfold State.countStep
  rw [prependOutputs_cfg]
  cases s.cfg.stepLimit with
  | none => rfl
  | some n => rfl

@[simp] theorem fetchDecode_prependOutputs : fetchDecode (s.prependOutputs o) = fetchDecode s := rfl

@[simp] theorem readOperand_prependOutputs (slot : Int) (m : Mode) :
    readOperand (s.prependOutputs o) slot m = readOperand s slot m := rfl

@[simp] theorem writeAddress_prependOutputs (slot : Int) :
    writeAddress (s.prependOutputs o) slot = writeAddress s slot := rfl

theorem memWrite_prependOutputs (a v : Int) :
    memWrite (s.prependOutputs o) a v = State.prependOutputs o <$> memWrite s a v := by
  by_cases h : s.mem.inBounds a
  · rw [memWrite_of_inBounds v h]
    exact memWrite_of_inBounds v h
  · rw [memWrite_eq_error_iff.2 ⟨h, rfl⟩]
    exact memWrite_eq_error_iff.2 ⟨h, rfl⟩

theorem inPop_prependOutputs :
    inPop (s.prependOutputs o) = (fun p => (p.1, p.2.prependOutputs o)) <$> inPop s := by
  rcases s with ⟨cfg, mem, pc, rs, iq, oq, sc⟩
  cases iq with
  | nil => rfl
  | cons v rest => rfl

/-- Only the test for a full OQ looks at OQ, and with no OUT_DEPTH there is none (42_io R101). -/
theorem outPush_of_unbounded (v : Int) (hdepth : s.cfg.outDepth = none) :
    outPush s v = .ok { s with oq := s.oq ++ [v] } :=
  outPush_eq_ok_iff.2 ⟨by simp [hdepth], rfl⟩

theorem outPush_prependOutputs (v : Int) (hdepth : s.cfg.outDepth = none) :
    outPush (s.prependOutputs o) v = State.prependOutputs o <$> outPush s v := by
  rw [outPush_of_unbounded s v hdepth, outPush_of_unbounded (s.prependOutputs o) v hdepth]
  exact congrArg Except.ok (by simp [State.prependOutputs])

theorem threeOperand_prependOutputs (m1 m2 : Mode) (result : Int → Int → Except FaultRecord Int) :
    threeOperand (s.prependOutputs o) m1 m2 result = State.prependOutputs o <$> threeOperand s m1 m2 result := by
  simp only [threeOperand, State.prependOutputs_pc, readOperand_prependOutputs, writeAddress_prependOutputs,
    memWrite_prependOutputs, State.prependOutputs_advance, map_bind, bind_map_left, map_pure]

theorem conditionalJump_prependOutputs (m1 m2 : Mode) (taken : Int → Bool) :
    conditionalJump (s.prependOutputs o) m1 m2 taken = State.prependOutputs o <$> conditionalJump s m1 m2 taken := by
  simp only [conditionalJump, State.prependOutputs_pc, State.prependOutputs_cfg, readOperand_prependOutputs,
    State.prependOutputs_advance, State.prependOutputs_jumpTo, map_bind]
  cases s.cfg.jumpEval <;> simp only [map_bind, apply_ite (State.prependOutputs o <$> ·), map_pure]

theorem inputResult_prependOutputs :
    inputResult (s.prependOutputs o) = State.prependOutputs o <$> inputResult s := by
  simp only [inputResult, State.prependOutputs_pc, writeAddress_prependOutputs, inPop_prependOutputs,
    memWrite_prependOutputs, State.prependOutputs_advance, map_bind, bind_map_left, map_pure]

theorem outputResult_prependOutputs (m1 : Mode) (hdepth : s.cfg.outDepth = none) :
    outputResult (s.prependOutputs o) m1 = State.prependOutputs o <$> outputResult s m1 := by
  simp only [outputResult, State.prependOutputs_pc, State.prependOutputs_cfg, readOperand_prependOutputs,
    outPush_prependOutputs o s _ hdepth, State.prependOutputs_advance, map_bind, bind_map_left, map_pure]

/-- With no OUT_DEPTH an instruction does the same whatever stands in front of OQ, its faults included. -/
theorem courseOf_prependOutputs (i : Instr) (hdepth : s.cfg.outDepth = none) :
    courseOf i (s.prependOutputs o) = State.prependOutputs o <$> courseOf i s := by
  cases i with
  | add m1 m2 => exact threeOperand_prependOutputs o s m1 m2 _
  | multiply m1 m2 => exact threeOperand_prependOutputs o s m1 m2 _
  | input => exact inputResult_prependOutputs o s
  | output m1 => exact outputResult_prependOutputs o s m1 hdepth
  | jumpIfTrue m1 m2 => exact conditionalJump_prependOutputs o s m1 m2 _
  | jumpIfFalse m1 m2 => exact conditionalJump_prependOutputs o s m1 m2 _
  | lessThan m1 m2 => exact threeOperand_prependOutputs o s m1 m2 _
  | equals m1 m2 => exact threeOperand_prependOutputs o s m1 m2 _
  | halt => rfl

end

/-- The engine has a step wherever RS = Running (40_execution_cycle R75). -/
theorem exists_step_of_running {s : State} (hs : s.rs = .running) : ∃ t, step s = .next t := by
  cases hfetch : fetchDecode s with
  | error f => exact ⟨_, step_eq_next_iff.2 ⟨hs, .inl ⟨f, rfl, .inl hfetch⟩⟩⟩
  | ok i =>
    cases hcourse : courseOf i s with
    | error f => exact ⟨_, step_eq_next_iff.2 ⟨hs, .inl ⟨f, rfl, .inr ⟨i, hfetch, hcourse⟩⟩⟩⟩
    | ok u => exact ⟨_, step_eq_next_iff.2 ⟨hs, .inr ⟨i, u, hfetch, hcourse, rfl⟩⟩⟩

/-- With no OUT_DEPTH a step is the same step whatever stands in front of OQ. -/
theorem step_prependOutputs {s t : State} (o : List Int) (hdepth : s.cfg.outDepth = none) (h : step s = .next t) :
    step (s.prependOutputs o) = .next (t.prependOutputs o) := by
  obtain ⟨hrun, ⟨f, rfl, hfault⟩ | ⟨i, u, hfetch, hcourse, rfl⟩⟩ := step_eq_next_iff.1 h
  · refine step_eq_next_iff.2 ⟨hrun, .inl ⟨f, rfl, ?_⟩⟩
    rcases hfault with hfetch | ⟨i, hfetch, hcourse⟩
    · exact .inl hfetch
    · exact .inr ⟨i, hfetch, by rw [courseOf_prependOutputs o s i hdepth, hcourse]; rfl⟩
  · refine step_eq_next_iff.2 ⟨hrun, .inr ⟨i, u.prependOutputs o, hfetch, ?_, ?_⟩⟩
    · rw [courseOf_prependOutputs o s i hdepth, hcourse]; rfl
    · exact (State.prependOutputs_countStep o u).symm

/-- Any contents of OQ are older outputs in front of an empty one. -/
theorem State.prependOutputs_empty (o : List Int) (s : State) :
    State.prependOutputs o { s with oq := [] } = { s with oq := o } := by
  simp [State.prependOutputs]

/-! ### The load (10_state R32) -/

theorem loadImage_eq_some_iff {c : Config} {image inputs : List Int} {s : State} :
    loadImage c image inputs = some s ↔ loadable c image inputs ∧
      s = { cfg := c, mem := Memory.ofImage image, pc := 0, rs := .running, iq := inputs, oq := [], sc := 0 } := by
  unfold loadImage
  by_cases h : loadable c image inputs
  · rw [if_pos h]; simp only [Option.some.injEq, eq_true h, true_and, eq_comm]
  · rw [if_neg h]; simp only [reduceCtorEq, h, false_and]

theorem loadImage_eq_none_iff {c : Config} {image inputs : List Int} :
    loadImage c image inputs = none ↔ ¬loadable c image inputs := by
  unfold loadImage
  by_cases h : loadable c image inputs
  · rw [if_pos h]; simp only [reduceCtorEq, eq_true h, not_true_eq_false]
  · rw [if_neg h]; simp only [h, not_false_eq_true]

/-- The cells of an image placed from address `k` hold the image there, and 0 outside it. -/
theorem lookup_cellsFrom (image : List Int) (k a : Nat) :
    lookupCell (cellsFrom k image) a = if a < k then 0 else image.getD (a - k) 0 := by
  induction image generalizing k with
  | nil => simp [cellsFrom, lookupCell]
  | cons v vs ih =>
    have hlisted : lookupCell (cellsFrom k (v :: vs)) a =
        if a = k then v else lookupCell (cellsFrom (k + 1) vs) a := by
      by_cases hv : v = 0
      · rcases eq_or_ne a k with rfl | ha
        · simp [cellsFrom, hv, ih]
        · simp [cellsFrom, hv, ha]
      · simp [cellsFrom, hv, lookupCell]
    rw [hlisted, ih]
    rcases lt_trichotomy a k with hlt | rfl | hgt
    · simp [hlt, hlt.ne, Nat.lt_succ_of_lt hlt]
    · simp
    · obtain ⟨n, rfl⟩ := Nat.exists_eq_add_of_lt hgt
      simp [show ¬k + n + 1 < k by omega, show ¬k + n + 1 = k by omega, show k + n + 1 - k = n + 1 by omega,
        show k + n + 1 - (k + 1) = n by omega]

theorem Memory.get_ofImage (image : List Int) (a : Nat) : (Memory.ofImage image).get a = image.getD a 0 := by
  simp [Memory.get, Memory.ofImage, lookup_cellsFrom]

/-- An accepted load meets the invariant: the words of the image and the inputs are what was checked. -/
theorem loadImage_inv {c : Config} {image inputs : List Int} {s : State} (hc : c.wf)
    (h : loadImage c image inputs = some s) : s.inv := by
  obtain ⟨⟨hlen, himage, hinputs⟩, rfl⟩ := loadImage_eq_some_iff.1 h
  have hcells : ∀ x ∈ cellsFrom 0 image, isWord c.wordBits x.2 := fun x hx => himage _ (mem_cellsFrom hx)
  have hpc : isWord c.wordBits 0 := hc.isWord_of_le le_rfl (by omega)
  exact ⟨hc, ⟨Memory.wf_ofImage image, hlen, hcells⟩, hpc, ⟨hinputs, by simp, by simp⟩, by simp⟩

theorem loadImage_empty : loadImage Config.default [] [] = some State.reset :=
  loadImage_eq_some_iff.2 ⟨by decide, rfl⟩

/-! ### The STATUS view (10_state R26) -/

theorem State.status_of_running {s : State} (h : s.rs = .running) :
    s.status = { state := 0, cause := 0, info := 0 } := by
  unfold State.status; rw [h]

theorem State.status_of_halted {s : State} (h : s.rs = .halted) :
    s.status = { state := 1, cause := 0, info := 0 } := by
  unfold State.status; rw [h]

theorem State.status_of_faulted {s : State} {r : FaultRecord} (h : s.rs = .faulted r) :
    s.status = { state := 2, cause := causeOf r, info := infoOf r } := by
  unfold State.status; rw [h]

end Sys2Proof.Machine

/-! ### The obligations -/

namespace Sys2Proof

open Machine

/-- Settles O48, by induction over the run: every step keeps the invariant (`step_inv`) and the history
(`step_keepsHistory`). -/
theorem everyReachableStateKeepsItsHistory : Obligations.EveryReachableStateKeepsItsHistory := by
  intro s t hs h
  have hinv : t.inv := h.preserves hs fun _ _ => step_inv
  have hist : s.KeepsHistory t := h.preserves (.refl s) fun _ _ hst hnext => hst.trans (step_keepsHistory hnext)
  obtain ⟨used, hused⟩ := hist.iq
  obtain ⟨more, hmore⟩ := hist.oq
  exact ⟨hinv, hist.cfg, hist.len, ⟨used, hused.symm⟩, more, hmore.symm⟩

/-- Settles O22: a completed three-operand instruction is one write to its destination. -/
theorem threeOperandFrame : Obligations.ThreeOperandFrame := by
  intro s t m1 m2 i hi h
  have hformat : i.format = .f3s := by
    simp only [List.mem_cons, List.not_mem_nil, or_false] at hi
    rcases hi with rfl | rfl | rfl | rfl <;> rfl
  rcases exec_next_cases h with hdone | ⟨f, rfl⟩
  · rw [hformat] at hdone
    cases hdone with
    | f3s hd => exact ⟨rfl, rfl, rfl, rfl, rfl, .inl rfl, fun a => memRead_off_destination hd rfl⟩
  · exact ⟨rfl, rfl, rfl, rfl, rfl, .inr rfl, fun _ _ => rfl⟩

/-- Settles O25: a completed Input is one write to its destination of the front word of IQ. -/
theorem inputFrame : Obligations.InputFrame := by
  intro s t h
  rcases exec_next_cases h with hdone | ⟨f, rfl⟩
  · cases hdone with
    | fd hd hq => exact ⟨rfl, rfl, rfl, rfl, .inl rfl, .inr ⟨_, hq⟩, fun a => memRead_off_destination hd rfl⟩
  · exact ⟨rfl, rfl, rfl, rfl, .inr rfl, .inl rfl, fun _ _ => rfl⟩

/-- Settles O28: a completed Output appends one word to OQ. -/
theorem outputFrame : Obligations.OutputFrame := by
  intro s t m1 h
  rcases exec_next_cases h with hdone | ⟨f, rfl⟩
  · cases hdone with
    | fs => exact ⟨rfl, rfl, rfl, rfl, .inl rfl, .inr ⟨_, rfl⟩⟩
  · exact ⟨rfl, rfl, rfl, rfl, .inr rfl, .inl rfl⟩

/-- Settles O32: a completed jump sets pc. -/
theorem jumpFrame : Obligations.JumpFrame := by
  intro s t m1 m2 i hi h
  have hformat : i.format = .f2s := by
    simp only [List.mem_cons, List.not_mem_nil, or_false] at hi
    rcases hi with rfl | rfl <;> rfl
  rcases exec_next_cases h with hdone | ⟨f, rfl⟩
  · rw [hformat] at hdone
    cases hdone with
    | f2s => exact ⟨rfl, rfl, rfl, rfl, rfl, .inl rfl⟩
  · exact ⟨rfl, rfl, rfl, rfl, rfl, .inr rfl⟩

/-- Settles O47 (`loadImage_inv`). -/
theorem acceptedLoadEstablishesTheInvariant : Obligations.AcceptedLoadEstablishesTheInvariant :=
  fun _ _ _ _ => loadImage_inv

/-- Settles O50: a fault changes no cell, and a completed instruction at most its destination
(`Completes.changed_cell`). -/
theorem onlyDestinationsAreWritten : Obligations.OnlyDestinationsAreWritten := by
  intro s t a h ha
  obtain ⟨hrun, ⟨f, rfl, -⟩ | ⟨i, u, hfetch, hcourse, rfl⟩⟩ := step_eq_next_iff.1 h
  · exact absurd rfl ha
  · rw [memRead_congr u.countStep_mem] at ha
    rw [u.countStep_rs]
    exact ⟨courseOf_ok_not_faulted hrun hcourse, i, hfetch, (courseOf_completes hcourse).changed_cell ha⟩

/-- Settles O51: both states are the state with an empty OQ, with different older outputs in front, and a step commutes
with those (`step_prependOutputs`). -/
theorem noInstructionReadsTheOutputFifo : Obligations.NoInstructionReadsTheOutputFifo := by
  intro s t o hdepth h
  obtain ⟨hrun, -⟩ := step_eq_next_iff.1 h
  obtain ⟨u, hu⟩ := exists_step_of_running (s := { s with oq := [] }) hrun
  have hstep : ∀ p, step { s with oq := p } = .next (u.prependOutputs p) := fun p => by
    rw [← State.prependOutputs_empty]
    exact step_prependOutputs p hdepth hu
  have ht : t = u.prependOutputs s.oq := by
    simpa only [Host.Outcome.next.injEq] using h.symm.trans (hstep s.oq)
  subst ht
  exact ⟨u.oq, rfl, hstep o⟩

/-- Settles O52: the load is accepted exactly when `loadable` holds, and the loaded memory reads as the image
(`Memory.get_ofImage`). -/
theorem loadSetsEveryPieceOfState : Obligations.LoadSetsEveryPieceOfState := by
  intro c image inputs
  constructor
  · intro h
    refine ⟨_, loadImage_eq_some_iff.2 ⟨h, rfl⟩, fun a ha => ?_, rfl, rfl, rfl, rfl, rfl, rfl, rfl,
      State.status_of_running rfl⟩
    have hget : (Memory.ofImage image).get a = image[a] := by
      rw [Memory.get_ofImage, List.getD_eq_getElem _ _ ha]
    exact memRead_eq_ok_iff.2 ⟨⟨Int.natCast_nonneg a, Int.ofNat_lt.2 ha⟩, hget⟩
  · intro h
    refine loadImage_eq_none_iff.2 fun ⟨hlen, himage, hinputs⟩ => ?_
    rcases h with hlong | ⟨v, hv, hbad⟩ | ⟨v, hv, hbad⟩
    · exact absurd hlen (not_le.2 hlong)
    · exact hbad (himage v hv)
    · exact hbad (hinputs v hv)

/-- Settles O46: the reset state is an accepted load, at parameters that respect R8. -/
theorem invariantHoldsAtReset : Obligations.InvariantHoldsAtReset := by
  have hmargin : Config.default.wf := by decide
  exact loadImage_inv hmargin loadImage_empty

/-- Settles O54, one clause per run state and fault record. -/
theorem statusViewOfTheRunState : Obligations.StatusViewOfTheRunState := fun _ =>
  ⟨State.status_of_running, State.status_of_halted, fun _ => State.status_of_faulted,
    fun _ => State.status_of_faulted, fun _ => State.status_of_faulted, State.status_of_faulted,
    State.status_of_faulted, State.status_of_faulted, State.status_of_faulted⟩

end Sys2Proof
end

section
/-! The statements of 20_memory: every access is checked, a fault changes RS alone, and the next fetch sees a write. The
last one joins three laws: the word of an instruction decodes to it (`decode_encode`), a word stored at the new pc is
the one fetched (`fetchDecode_of_stored`), and without a step ceiling a step is the `exec` of what was fetched
(`step_eq_exec`). -/

namespace Sys2Proof

/-! ### The word of an instruction decodes to it (30_encoding R56, R67) -/

/-- The three fields the decoder reads come back out of a word put together from them. -/
theorem fields_encodeDigits {op : Int} (m1 m2 : Mode) (h0 : 0 ≤ op) (h100 : op < 100) :
    opcodeOf (encodeDigits op m1.digit m2.digit) = op ∧ dig (encodeDigits op m1.digit m2.digit) 2 = m1.digit ∧
      dig (encodeDigits op m1.digit m2.digit) 3 = m2.digit := by
  have hd1 := m1.digit_binary
  have hd2 := m2.digit_binary
  have hw : 0 ≤ encodeDigits op m1.digit m2.digit := by unfold encodeDigits; omega
  rw [opcodeOf_of_nonneg hw, dig_of_nonneg hw, dig_of_nonneg hw]
  unfold encodeDigits
  omega

/-- Whatever MODE_CHECK is, only the two mode digits are checked (40_execution_cycle R80). -/
theorem checkedDigits_subset (c : Config) (op d1 d2 : Int) : checkedDigits c op d1 d2 ⊆ [d1, d2] := by
  unfold checkedDigits
  cases c.modeCheck with
  | always => exact List.Subset.refl _
  | firstTwoParams => simp only; split_ifs <;> simp
  | sourcesOnly => simp only; split_ifs <;> simp

theorem Instr.opcode_range (i : Instr) : 0 ≤ i.opcode ∧ i.opcode < 100 := by
  cases i <;> simp [Instr.opcode]

/-- A word put together from an instruction's opcode and two mode digits is legal, and decodes to the instruction that
the opcode map gives for them. -/
theorem decode_encodeDigits (c : Config) {i : Instr} {m1 m2 : Mode} (hi : instrOf i.opcode m1 m2 = some i) :
    decode c (encodeDigits i.opcode m1.digit m2.digit) = .ok i := by
  obtain ⟨h0, h100⟩ := i.opcode_range
  obtain ⟨hop, hdig1, hdig2⟩ := fields_encodeDigits m1 m2 h0 h100
  rw [decode_eq_ok_iff, hop, hdig1, hdig2, modeOfDigit_digit, modeOfDigit_digit]
  refine ⟨hi, fun d hd => ?_⟩
  have hmem : d = m1.digit ∨ d = m2.digit := by simpa using checkedDigits_subset _ _ _ _ hd
  rcases hmem with rfl | rfl
  · exact m1.digit_binary
  · exact m2.digit_binary

/-- The digit of a missing parameter and of a destination is that of Position mode. -/
theorem decode_encode (c : Config) (i : Instr) : decode c (encode i) = .ok i := by
  cases i with
  | add m1 m2 => exact decode_encodeDigits c rfl
  | multiply m1 m2 => exact decode_encodeDigits c rfl
  | input => exact decode_encodeDigits c (m1 := .position) (m2 := .position) rfl
  | output m1 => exact decode_encodeDigits c (m1 := m1) (m2 := .position) rfl
  | jumpIfTrue m1 m2 => exact decode_encodeDigits c rfl
  | jumpIfFalse m1 m2 => exact decode_encodeDigits c rfl
  | lessThan m1 m2 => exact decode_encodeDigits c rfl
  | equals m1 m2 => exact decode_encodeDigits c rfl
  | halt => exact decode_encodeDigits c (m1 := .position) (m2 := .position) rfl

namespace Machine

/-! ### The step around the instruction (40_execution_cycle R76 to R83, R88) -/

/-- The ceiling's, the fetch's or the decoder's fault is the step's. -/
theorem step_of_fetchDecode_error {s : State} {f : FaultRecord} (hrun : s.rs = .running)
    (h : fetchDecode s = .error f) : step s = .next (s.raise f) :=
  step_eq_next_iff.2 ⟨hrun, .inl ⟨f, rfl, .inl h⟩⟩

/-- No completed instruction leaves a fault behind, so a faulted state was raised from the state before the step. -/
theorem step_to_faulted {s t : State} {f : FaultRecord} (h : step s = .next t) (hf : t.rs = .faulted f) :
    t = s.raise f := by
  obtain ⟨hrun, ⟨g, rfl, -⟩ | ⟨i, u, -, hcourse, rfl⟩⟩ := step_eq_next_iff.1 h
  · rw [RunState.faulted.inj hf]
  · have hu := courseOf_ok_not_faulted hrun hcourse
    rw [State.countStep_rs] at hf
    rw [hf] at hu
    cases hu

/-- SC exists only under a numeric STEP_LIMIT (40_execution_cycle R88, R89). -/
theorem State.countStep_of_no_ceiling {s : State} (h : s.cfg.stepLimit = none) : s.countStep = s := by
  unfold State.countStep; rw [h]

/-- With no step ceiling nothing is done around the instruction. -/
theorem step_eq_exec {s : State} {i : Instr} (hrun : s.rs = .running) (hlim : s.cfg.stepLimit = none)
    (hfetch : fetchDecode s = .ok i) : step s = exec i s := by
  rw [exec_eq_settle]
  cases hcourse : courseOf i s with
  | error f => exact step_eq_next_iff.2 ⟨hrun, .inl ⟨f, rfl, .inr ⟨i, hfetch, hcourse⟩⟩⟩
  | ok u =>
    obtain ⟨hcfg, -⟩ := courseOf_ok_frame hcourse
    have hcount : u = u.countStep := (State.countStep_of_no_ceiling (hcfg ▸ hlim)).symm
    exact step_eq_next_iff.2 ⟨hrun, .inr ⟨i, u, hfetch, hcourse, hcount⟩⟩

/-- A sum in the word range is stored at the resolved destination (41_arithmetic R95). -/
theorem exec_add_of_isWord {s : State} {m1 m2 : Mode} {a b d : Int} (ha : readOperand s (s.pc + 1) m1 = .ok a)
    (hb : readOperand s (s.pc + 2) m2 = .ok b) (hd : writeAddress s (s.pc + 3) = .ok d)
    (hsum : isWord s.cfg.wordBits (a + b)) :
    exec (.add m1 m2) s = .next { s with mem := s.mem.set d.toNat (a + b), pc := s.pc + 4 } :=
  exec_eq_next_iff.2 <| .inl <| threeOperand_eq_ok_iff.2
    ⟨a, b, d, a + b, ha, hb, hd, rangeResult_eq_ok_iff.2 (.inl ⟨hsum, rfl⟩), rfl⟩

/-- After the word of an instruction was stored at what is now pc, that instruction is the one fetched (20_memory
R51). -/
theorem fetchDecode_of_stored {s t : State} {j : Instr} (hpc : s.mem.inBounds t.pc)
    (hmem : t.mem = s.mem.set t.pc.toNat (encode j)) (hbelow : t.cfg.stepLimit ≠ some t.sc) :
    fetchDecode t = .ok j := by
  have hread : memRead t t.pc = .ok (encode j) :=
    (memRead_congr hmem t.pc).trans (memRead_set_same (encode j) hpc)
  exact fetchDecode_eq_ok_iff.2 ⟨hbelow, _, hread, decode_encode _ j⟩

end Machine

/-! ### The obligations -/

open Machine

/-- Settles O12: the checks of the resolver and of the fetch are those of the reads and writes they make. -/
theorem everyAccessIsBoundsChecked : Obligations.EveryAccessIsBoundsChecked := by
  intro s a ha
  have hread : memRead s a = .error (.outOfBounds a) := memRead_eq_error_iff.2 ⟨ha, rfl⟩
  refine ⟨⟨hread, fun v => memWrite_eq_error_iff.2 ⟨ha, rfl⟩⟩, ?fetch,
    fun m => readOperand_eq_error_iff.2 (.inl hread), writeAddress_eq_error_iff.2 (.inl hread), ?pointee⟩
  case fetch =>
    rintro hrun hbelow rfl
    exact step_of_fetchDecode_error hrun (fetchDecode_eq_error_iff.2 (.inr ⟨hbelow, .inl hread⟩))
  case pointee =>
    intro slot hslot
    exact ⟨readOperand_eq_error_iff.2 (.inr ⟨rfl, a, hslot, hread⟩),
      writeAddress_eq_error_iff.2 (.inr ⟨a, hslot, ha, rfl⟩)⟩

/-- Settles O40 (`step_to_faulted`): raising a fault sets RS only. -/
theorem faultsArePrecise : Obligations.FaultsArePrecise :=
  fun _ _ _ => step_to_faulted

/-- Settles O44: the Add completes with pc at the word it has stored, so the next step fetches that word
(`fetchDecode_of_stored`). -/
theorem nextFetchSeesTheWrite : Obligations.NextFetchSeesTheWrite := by
  intro s w m1 m2 a b j hrun hlim hw hdecode ha hb hd hsum hword
  have hbelow : s.cfg.stepLimit ≠ some s.sc := by simp [hlim]
  have hfetch : fetchDecode s = .ok (.add m1 m2) := fetchDecode_eq_ok_iff.2 ⟨hbelow, w, hw, hdecode⟩
  have hadd := exec_add_of_isWord ha hb hd hword
  rw [hsum] at hadd
  let t : State := { s with mem := s.mem.set (s.pc + 4).toNat (encode j), pc := s.pc + 4 }
  have hnext : fetchDecode t = .ok j :=
    fetchDecode_of_stored (s := s) (writeAddress_eq_ok_iff.1 hd).2 rfl hbelow
  obtain ⟨u, hu⟩ := exists_step_of_running (s := t) hrun
  have hexec : step t = exec j t := step_eq_exec hrun hlim hnext
  exact ⟨t, u, (step_eq_exec hrun hlim hfetch).trans hadd, rfl, hexec ▸ hu, hu⟩

end Sys2Proof
end

section
/-! The statements of 30_encoding: decode and encode are inverse to each other on what the decoder reads, which words
are legal and what they select, and the words of an assembled line. On words that are not negative the opcode and the two
mode digits are the digits of `w % 10000` (`encodeDigits_fields`); on negative words none of them is positive
(`opcodeOf_range_of_neg`, `dig_range_of_neg`), which no legal opcode allows. -/

namespace Sys2Proof

/-! ### The three fields of a word (30_encoding R56, R57) -/

/-- The fields of a word that is not negative make up its four low digits. -/
theorem encodeDigits_fields {w : Int} (hw : 0 ≤ w) :
    encodeDigits (opcodeOf w) (dig w 2) (dig w 3) = w % 10000 := by
  rw [opcodeOf_of_nonneg hw, dig_of_nonneg hw, dig_of_nonneg hw]
  unfold encodeDigits
  omega

/-- The opcode and digit 2 make up the three low digits. -/
theorem encodeDigits_opcode_dig2 {w : Int} (hw : 0 ≤ w) : encodeDigits (opcodeOf w) (dig w 2) 0 = w % 1000 := by
  rw [opcodeOf_of_nonneg hw, dig_of_nonneg hw]
  unfold encodeDigits
  omega

/-- The decoder sees a word that is not negative modulo 10000. -/
theorem decode_eq_of_emod_eq {c : Config} {w w' : Int} (hw : 0 ≤ w) (hw' : 0 ≤ w') (h : w % 10000 = w' % 10000) :
    decode c w = decode c w' := by
  apply decode_congr
  · rw [opcodeOf_of_nonneg hw, opcodeOf_of_nonneg hw']
    omega
  · rw [dig_of_nonneg hw, dig_of_nonneg hw']
    omega
  · rw [dig_of_nonneg hw, dig_of_nonneg hw']
    omega

theorem opcodeOf_range_of_neg {w : Int} (hw : w < 0) : -99 ≤ opcodeOf w ∧ opcodeOf w ≤ 0 := by
  have hneg := opcodeOf_neg w
  rw [opcodeOf_of_nonneg (by omega)] at hneg
  omega

theorem dig_range_of_neg {w : Int} (hw : w < 0) (k : Nat) : -9 ≤ dig w k ∧ dig w k ≤ 0 := by
  have hneg := dig_neg w k
  rw [dig_of_nonneg (by omega)] at hneg
  omega

/-! ### The opcode map on the fields (30_encoding R62) -/

/-- What every row of the map has in common: its opcode is the instruction's, and where a source takes its mode from the
map, the instruction word has that mode's digit. The opcodes that the mode check treats apart (R80) have fewer than two
sources. -/
theorem instrOf_fields {op : Int} {m1 m2 : Mode} {i : Instr} (h : instrOf op m1 m2 = some i) :
    i.opcode = op ∧
      (i.format = .f3s ∨ i.format = .f2s →
        encode i = encodeDigits op m1.digit m2.digit ∧ op ≠ 3 ∧ op ≠ 4 ∧ op ≠ 99) ∧
      (i.format = .fs → encode i = encodeDigits op m1.digit 0 ∧ op = 4) := by
  rcases instrOf_eq_some_iff.1 h with
    ⟨rfl, rfl⟩ | ⟨rfl, rfl⟩ | ⟨rfl, rfl⟩ | ⟨rfl, rfl⟩ | ⟨rfl, rfl⟩ | ⟨rfl, rfl⟩ | ⟨rfl, rfl⟩ | ⟨rfl, rfl⟩ |
      ⟨rfl, rfl⟩ <;>
  simp [Instr.format, encode, Instr.opcode]

theorem exists_instrOf_iff {op : Int} {m1 m2 : Mode} :
    (∃ i, instrOf op m1 m2 = some i) ↔ (1 ≤ op ∧ op ≤ 8) ∨ op = 99 := by
  rw [← Option.ne_none_iff_exists', Ne, instrOf_eq_none_iff, not_not]

theorem selectInstr_of_illegal {op : Int} (d1 d2 : Int) (h : ¬((1 ≤ op ∧ op ≤ 8) ∨ op = 99)) :
    selectInstr op d1 d2 = .error (.invalidOpcode op) :=
  selectInstr_eq_error_iff.2 ⟨instrOf_eq_none_iff.2 h, rfl⟩

/-! ### The mode digits that are checked (40_execution_cycle R80, R81) -/

theorem digit_modeOfDigit {d : Int} (h : d = 0 ∨ d = 1) : (modeOfDigit d).digit = d := by
  rcases h with rfl | rfl <;> rfl

/-- Both digits of an instruction with two sources are checked under every MODE_CHECK. -/
theorem checkedDigits_two_sources (c : Config) {op : Int} (d1 d2 : Int) (h3 : op ≠ 3) (h4 : op ≠ 4) (h99 : op ≠ 99) :
    checkedDigits c op d1 d2 = [d1, d2] := by
  unfold checkedDigits
  cases c.modeCheck <;> simp [h3, h4, h99]

/-- The digit of Output is checked under every MODE_CHECK where OUTPUT_MODE uses it. -/
theorem mem_checkedDigits_output {c : Config} (d1 d2 : Int) (h : c.outputMode = .honour) :
    d1 ∈ checkedDigits c 4 d1 d2 := by
  unfold checkedDigits
  cases c.modeCheck <;> simp [h]

/-- The table of R80, read as what it asks of the two digits. -/
theorem checkedDigits_binary_iff {c : Config} {op d1 d2 : Int} :
    (∀ d ∈ checkedDigits c op d1 d2, d = 0 ∨ d = 1) ↔
      (c.modeCheck = .always → (d1 = 0 ∨ d1 = 1) ∧ (d2 = 0 ∨ d2 = 1)) ∧
      (c.modeCheck = .firstTwoParams →
        (op ≠ 99 → d1 = 0 ∨ d1 = 1) ∧ (op ≠ 99 → op ≠ 3 → op ≠ 4 → d2 = 0 ∨ d2 = 1)) ∧
      (c.modeCheck = .sourcesOnly →
        (op = 4 → c.outputMode = .honour → d1 = 0 ∨ d1 = 1) ∧
        (op ≠ 99 → op ≠ 3 → op ≠ 4 → (d1 = 0 ∨ d1 = 1) ∧ (d2 = 0 ∨ d2 = 1))) := by
  unfold checkedDigits
  by_cases h3 : op = 3
  · subst h3
    cases c.modeCheck <;> simp
  by_cases h4 : op = 4
  · subst h4
    cases c.modeCheck <;> cases c.outputMode <;> simp
  by_cases h99 : op = 99
  · subst h99
    cases c.modeCheck <;> simp
  · cases c.modeCheck <;> simp [h3, h4, h99]

/-- Under MODE_CHECK = Always the digits are validated before the opcode (40_execution_cycle R79, R81). -/
theorem decode_of_always {c : Config} (h : c.modeCheck = .always) (w : Int) :
    decode c w =
      if dig w 2 = 0 ∨ dig w 2 = 1 then
        if dig w 3 = 0 ∨ dig w 3 = 1 then selectInstr (opcodeOf w) (dig w 2) (dig w 3)
        else .error (.invalidParameterMode (dig w 3))
      else .error (.invalidParameterMode (dig w 2)) := by
  unfold decode checkedDigits
  simp only [h, if_true, checkDigits]
  split_ifs <;> rfl

/-- Under the other settings an illegal opcode is reported whatever the digits are. -/
theorem decode_of_illegal_opcode {c : Config} {w : Int} (h : c.modeCheck ≠ .always)
    (hop : ¬((1 ≤ opcodeOf w ∧ opcodeOf w ≤ 8) ∨ opcodeOf w = 99)) :
    decode c w = .error (.invalidOpcode (opcodeOf w)) := by
  rw [decode_eq_error_iff, if_neg h]
  exact .inl (selectInstr_of_illegal _ _ hop)

/-- A legal opcode is positive, and that of a negative word is not (decision D3). -/
theorem nonneg_of_decode_ok {c : Config} {w : Int} {i : Instr} (h : decode c w = .ok i) : 0 ≤ w := by
  obtain ⟨hmap, -⟩ := decode_eq_ok_iff.1 h
  have hlegal := exists_instrOf_iff.1 ⟨i, hmap⟩
  by_contra hneg
  have := opcodeOf_range_of_neg (not_le.1 hneg)
  omega

/-! ### The words of the encoder (30_encoding R67) -/

/-- An opcode below 9, with any two modes; the greatest such word is that of Equals with two immediate sources. -/
theorem encodeDigits_range {op : Int} (m1 m2 : Mode) (h0 : 0 ≤ op) (h8 : op ≤ 8) :
    0 ≤ encodeDigits op m1.digit m2.digit ∧ encodeDigits op m1.digit m2.digit ≤ 1108 := by
  have h1 := m1.digit_binary
  have h2 := m2.digit_binary
  unfold encodeDigits
  omega

theorem encode_range (i : Instr) : 0 ≤ encode i ∧ encode i ≤ 1108 := by
  cases i with
  | add m1 m2 => exact encodeDigits_range (op := 1) m1 m2 (by decide) (by decide)
  | multiply m1 m2 => exact encodeDigits_range (op := 2) m1 m2 (by decide) (by decide)
  | input => decide
  | output m1 => exact encodeDigits_range (op := 4) m1 .position (by decide) (by decide)
  | jumpIfTrue m1 m2 => exact encodeDigits_range (op := 5) m1 m2 (by decide) (by decide)
  | jumpIfFalse m1 m2 => exact encodeDigits_range (op := 6) m1 m2 (by decide) (by decide)
  | lessThan m1 m2 => exact encodeDigits_range (op := 7) m1 m2 (by decide) (by decide)
  | equals m1 m2 => exact encodeDigits_range (op := 8) m1 m2 (by decide) (by decide)
  | halt => decide

/-- From 12 bits on the word range reaches 2047. -/
theorem le_wmax_of_twelve_le {W : Nat} (h : 12 ≤ W) : 2047 ≤ wmax W := by
  have hpow : (2 : Int) ^ 11 ≤ 2 ^ (W - 1) := pow_le_pow_right₀ (by norm_num) (by omega)
  unfold wmax
  omega

theorem isWord_encode {W : Nat} (h : 12 ≤ W) (i : Instr) : isWord W (encode i) := by
  obtain ⟨h0, hmax⟩ := encode_range i
  have hW := le_wmax_of_twelve_le h
  exact ⟨(wmin_le_zero W).trans h0, by omega⟩

/-- An assembled line has one raw parameter per slot of its instruction's format (30_encoding R59, R61). -/
theorem Asm.length_words (a : Asm) : a.words.length = a.instr.length := by
  cases a <;> rfl

/-! ### The obligations -/

open Machine

/-- Settles O5 (`decode_eq_of_emod_eq`): the opcode and the digits 2 and 3 are functions of the word modulo 10000. -/
theorem digitsAboveThreeAreDontCare : Obligations.DigitsAboveThreeAreDontCare :=
  fun _ _ _ => decode_eq_of_emod_eq

/-- Settles O3: the digits above digit 3 are not read (`decode_eq_of_emod_eq`), and the word without them decodes to its
instruction (`decode_encode`). -/
theorem decodeOfEncodeIsTheInstruction : Obligations.DecodeOfEncodeIsTheInstruction := by
  intro c i k hk
  obtain ⟨h0, -⟩ := encode_range i
  calc decode c (encode i + 10000 * k)
      = decode c (encode i) := decode_eq_of_emod_eq (by omega) h0 (by omega)
    _ = .ok i := decode_encode c i

/-- Settles O4: where a mode digit is used it is checked, so the mode it stands for has that digit
(`digit_modeOfDigit`), and encoding puts the fields of the word together again (`encodeDigits_fields`). -/
theorem encodeOfDecodeIsTheUsedDigits : Obligations.EncodeOfDecodeIsTheUsedDigits := by
  intro c w i h
  have hw := nonneg_of_decode_ok h
  obtain ⟨hmap, hbin⟩ := decode_eq_ok_iff.1 h
  obtain ⟨hopcode, htwo, hone⟩ := instrOf_fields hmap
  refine ⟨hw, hopcode.trans (opcodeOf_of_nonneg hw), fun hformat => ?twoSources,
    fun hformat hmode => ?oneSource⟩
  case twoSources =>
    obtain ⟨hencode, h3, h4, h99⟩ := htwo hformat
    rw [checkedDigits_two_sources c _ _ h3 h4 h99] at hbin
    rw [hencode, digit_modeOfDigit (hbin _ (by simp)), digit_modeOfDigit (hbin _ (by simp)), encodeDigits_fields hw]
  case oneSource =>
    obtain ⟨hencode, hop⟩ := hone hformat
    have hmem : dig w 2 ∈ checkedDigits c (opcodeOf w) (dig w 2) (dig w 3) :=
      hop ▸ mem_checkedDigits_output _ _ hmode
    rw [hencode, digit_modeOfDigit (hbin _ hmem), encodeDigits_opcode_dig2 hw]

/-- Settles O6: no field of a negative word is positive, so its opcode is illegal, and under Always its digits pass the
check only where they are 0. -/
theorem negativeWordsAreIllegal : Obligations.NegativeWordsAreIllegal := by
  intro c w hw
  have hop : -99 ≤ opcodeOf w ∧ opcodeOf w ≤ 0 := opcodeOf_range_of_neg hw
  have hd1 := dig_range_of_neg hw 2
  have hd2 := dig_range_of_neg hw 3
  have hillegal : ¬((1 ≤ opcodeOf w ∧ opcodeOf w ≤ 8) ∨ opcodeOf w = 99) := by omega
  refine ⟨hop, hd1, hd2, ?_⟩
  by_cases halways : c.modeCheck = .always
  · have hzero : ∀ {d : Int}, d ≤ 0 → ((d = 0 ∨ d = 1) ↔ d = 0) := by omega
    rw [decode_of_always halways, selectInstr_of_illegal _ _ hillegal]
    simp only [hzero hd1.2, hzero hd2.2, halways, true_and, ite_not, opcodeOf]
    split_ifs <;> rfl
  · rw [decode_of_illegal_opcode halways hillegal]
    simp only [halways, false_and, if_false, opcodeOf]

/-- Settles O7: the opcode is in the map (`exists_instrOf_iff`) and the checked digits are binary
(`checkedDigits_binary_iff`). -/
theorem legalWordsAreExactlyTheseOnes : Obligations.LegalWordsAreExactlyTheseOnes := by
  intro c w
  simp only [decode_eq_ok_iff, exists_and_right, exists_instrOf_iff, checkedDigits_binary_iff, opcodeOf]

/-- Settles O8, one case per row of the opcode map (`instrOf_eq_some_iff`). -/
theorem opcodeMapSelectsTheInstruction : Obligations.OpcodeMapSelectsTheInstruction := by
  intro c w i h
  obtain ⟨hmap, -⟩ := decode_eq_ok_iff.1 h
  have withFormat : ∀ {op : Int} {j : Instr}, opcodeOf w = op ∧ i = j → trem w 100 = op ∧ i.format = j.format ∧ i = j :=
    fun ⟨hop, hi⟩ => ⟨hop, congrArg Instr.format hi, hi⟩
  exact (instrOf_eq_some_iff.1 hmap).imp withFormat <| .imp withFormat <| .imp withFormat <| .imp withFormat <|
    .imp withFormat <| .imp withFormat <| .imp withFormat <| .imp withFormat withFormat

/-- Settles O10: the first word is the instruction's (`decode_encode`, `isWord_encode`), and the others are the raw
parameters. -/
theorem assembledWordsDecode : Obligations.AssembledWordsDecode := by
  intro c a
  refine ⟨decode_encode c a.instr, a.length_words, fun hW hparams v hv => ?_⟩
  rcases List.mem_cons.1 hv with rfl | hv
  · exact isWord_encode hW a.instr
  · exact hparams v hv

/-- Settles O2: six of the words are what the encoder gives (`decode_encode`), one differs from such a word above digit
3 only (O3), and the other two carry a mode digit that no source uses. -/
theorem wordsFromTheOpcodeMapDecode : Obligations.WordsFromTheOpcodeMapDecode := by
  obtain ⟨hinput, hhalt⟩ : decode Config.default 103 = .ok .input ∧ decode Config.default 299 = .ok .halt := by decide
  exact ⟨decode_encode _ (.add .immediate .immediate), decode_encode _ (.multiply .position .immediate),
    hinput, decode_encode _ (.output .immediate), decode_encode _ (.jumpIfTrue .position .immediate),
    decode_encode _ (.jumpIfFalse .immediate .position), decode_encode _ (.lessThan .immediate .immediate),
    decodeOfEncodeIsTheInstruction _ (.equals .position .position) 1 zero_le_one, hhalt⟩

/-- Settles O13, from what the operand resolver can answer. -/
theorem rawParametersAreWholeWords : Obligations.RawParametersAreWholeWords := by
  intro s slot r hr
  refine ⟨readOperand_eq_ok_iff.2 ⟨r, hr, .inl ⟨rfl, rfl⟩⟩,
    fun v hv => readOperand_eq_ok_iff.2 ⟨r, hr, .inr ⟨rfl, hv⟩⟩,
    fun hbounds => writeAddress_eq_ok_iff.2 ⟨hr, hbounds⟩, fun m => ?_⟩
  cases m with
  | position => exact .inr rfl
  | immediate => exact .inl rfl

end Sys2Proof
end

section
/-! The statements of 40_execution_cycle: which fault an illegal word and an unresolved operand report, and what a step
does around the instruction it runs: the checks before the dispatch, the one move of pc, and the count of SC. -/

namespace Sys2Proof

open Machine

/-! ### The mode check reports the first digit that fails (40_execution_cycle R81) -/

theorem checkDigits_cons_of_illegal {d : Int} (ds : List Int) (h : ¬(d = 0 ∨ d = 1)) :
    checkDigits (d :: ds) = .error (.invalidParameterMode d) :=
  if_neg h

theorem checkDigits_cons_of_binary {d : Int} (ds : List Int) (h : d = 0 ∨ d = 1) :
    checkDigits (d :: ds) = checkDigits ds :=
  if_pos h

/-- Under FirstTwoParams digit 2 is the first to be checked, for every opcode with a parameter (40_execution_cycle
R80). -/
theorem checkedDigits_firstTwoParams {c : Config} {op : Int} (d1 d2 : Int) (h : c.modeCheck = .firstTwoParams)
    (h99 : op ≠ 99) : ∃ ds, checkedDigits c op d1 d2 = d1 :: ds := by
  unfold checkedDigits
  by_cases hone : op = 3 ∨ op = 4
  · exact ⟨[], by simp [h, hone]⟩
  · exact ⟨[d2], by simp [h, hone, h99]⟩

/-- Under SourcesOnly the digit of Output is checked where OUTPUT_MODE uses it. -/
theorem checkedDigits_sourcesOnly_output {c : Config} (d1 d2 : Int) (h : c.modeCheck = .sourcesOnly)
    (hmode : c.outputMode = .honour) : checkedDigits c 4 d1 d2 = [d1] := by
  simp [checkedDigits, h, hmode]

/-- Once the opcode is found legal, the fault of the mode check is the decoder's (40_execution_cycle R79, R81). -/
theorem decode_of_checkDigits_error {c : Config} {w : Int} {f : FaultRecord} (h : c.modeCheck ≠ .always)
    (hop : (1 ≤ opcodeOf w ∧ opcodeOf w ≤ 8) ∨ opcodeOf w = 99)
    (hcheck : checkDigits (checkedDigits c (opcodeOf w) (dig w 2) (dig w 3)) = .error f) : decode c w = .error f := by
  obtain ⟨i, hi⟩ := exists_instrOf_iff.2 hop
  rw [decode_eq_error_iff, if_neg h]
  exact .inr ⟨⟨i, selectInstr_eq_ok_iff.2 hi⟩, hcheck⟩

namespace Machine

/-! ### The end of an instruction (40_execution_cycle R86, R87) -/

/-- The fault in an instruction's course is the one it raises, in the state it started from. -/
theorem exec_of_courseOf_error {i : Instr} {s : State} {f : FaultRecord} (h : courseOf i s = .error f) :
    exec i s = .next (s.raise f) :=
  exec_eq_next_iff.2 (.inr ⟨f, h, rfl⟩)

/-- The four three-operand instructions share one course, and differ in the result they compute. -/
theorem courseOf_three_operand {i : Instr} {m1 m2 : Mode}
    (hi : i ∈ [Instr.add m1 m2, .multiply m1 m2, .lessThan m1 m2, .equals m1 m2]) (s : State) :
    ∃ result, courseOf i s = threeOperand s m1 m2 result := by
  simp only [List.mem_cons, List.not_mem_nil, or_false] at hi
  rcases hi with rfl | rfl | rfl | rfl <;> exact ⟨_, rfl⟩

/-- Every format but those of the jumps and of Halt moves pc by its number of words. -/
theorem Completes.pc_eq_add_words {s t : State} {fmt : Format} (h : Completes s fmt t) (hjump : fmt ≠ .f2s)
    (hhalt : fmt ≠ .f0) : t.pc = s.pc + (fmt.words : Int) := by
  cases h with
  | f3s | fd | fs => rfl
  | f2s => exact absurd rfl hjump
  | f0 => exact absurd rfl hhalt

/-- A jump that completes goes on behind its three words, or to the target that it read. -/
theorem conditionalJump_pc {s t : State} {m1 m2 : Mode} {taken : Int → Bool}
    (h : conditionalJump s m1 m2 taken = .ok t) :
    t.pc = s.pc + 3 ∨ readOperand s (s.pc + 2) m2 = .ok t.pc := by
  obtain ⟨c, -, ⟨-, x, hx, rfl⟩ | ⟨-, -, rfl⟩⟩ := conditionalJump_eq_ok_iff.1 h
  · exact .inr hx
  · exact .inl rfl

/-! ### The count (40_execution_cycle R88) -/

/-- The count changes SC only. -/
theorem State.countStep_eq (s : State) :
    s.countStep = { s with sc := if s.cfg.stepLimit.isSome = true then s.sc + 1 else s.sc } := by
  unfold State.countStep
  cases s.cfg.stepLimit with
  | none => rfl
  | some n => rfl

end Machine

/-! ### The obligations -/

/-- Settles O9: under Always the digits are checked before the opcode (`decode_of_always`), and else after it
(`decode_of_illegal_opcode`, `decode_of_checkDigits_error`). -/
theorem illegalWordsReportInOrder : Obligations.IllegalWordsReportInOrder := by
  intro c w
  refine ⟨decode_of_illegal_opcode, fun halways h1 => ?_, fun halways h1 h2 => ?_, fun halways h1 h2 hop => ?_,
    fun hfirst hlo hhi h1 => ?firstTwoParams, fun hsources hout hmode h1 => ?sourcesOnly,
    fun hne hlo hhi h3 h4 => ?twoSources⟩
  · rw [decode_of_always halways, if_neg h1]
  · rw [decode_of_always halways, if_pos h1, if_neg h2]
  · rw [decode_of_always halways, if_pos h1, if_pos h2]
    exact selectInstr_of_illegal _ _ hop
  case firstTwoParams =>
    have h99 : opcodeOf w ≠ 99 := (hhi.trans_lt (by decide)).ne
    obtain ⟨ds, hds⟩ := checkedDigits_firstTwoParams (dig w 2) (dig w 3) hfirst h99
    exact decode_of_checkDigits_error (by simp [hfirst]) (.inl ⟨hlo, hhi⟩)
      (hds ▸ checkDigits_cons_of_illegal ds h1)
  case sourcesOnly =>
    have hop : opcodeOf w = 4 := hout
    refine decode_of_checkDigits_error (by simp [hsources]) (.inl (by omega)) ?_
    rw [hop, checkedDigits_sourcesOnly_output _ _ hsources hmode]
    exact checkDigits_cons_of_illegal [] h1
  case twoSources =>
    have h99 : opcodeOf w ≠ 99 := (hhi.trans_lt (by decide)).ne
    have hds := checkedDigits_two_sources c (dig w 2) (dig w 3) h3 h4 h99
    refine ⟨fun h1 => ?_, fun h1 h2 => ?_⟩ <;>
      refine decode_of_checkDigits_error hne (.inl ⟨hlo, hhi⟩) (hds ▸ ?_)
    · exact checkDigits_cons_of_illegal _ h1
    · rw [checkDigits_cons_of_binary _ h1]
      exact checkDigits_cons_of_illegal _ h2

/-- Settles O21: the four instructions resolve their operands in the one course they share (`courseOf_three_operand`),
in slot order (`threeOperand_eq_error_iff`). -/
theorem threeOperandFaultsInSlotOrder : Obligations.ThreeOperandFaultsInSlotOrder := by
  intro s m1 m2 f i hi
  obtain ⟨result, hcourse⟩ := courseOf_three_operand hi s
  have raises : threeOperand s m1 m2 result = .error f → exec i s = .next (s.raise f) := fun h =>
    exec_of_courseOf_error (hcourse.trans h)
  refine ⟨fun h => ?_, fun a ha h => ?_, fun a b ha hb h => ?_⟩ <;>
    refine raises (threeOperand_eq_error_iff.2 ?_)
  · exact .inl h
  · exact .inr ⟨a, ha, .inl h⟩
  · exact .inr ⟨a, ha, .inr ⟨b, hb, .inl h⟩⟩

/-- Settles O39 (`exists_step_of_running`). -/
theorem stepsExactlyWhileRunning : Obligations.StepsExactlyWhileRunning :=
  fun _ => ⟨fun ⟨_, h⟩ => (step_eq_next_iff.1 h).1, exists_step_of_running⟩

/-- Settles O42: a fault leaves SC, and a completed instruction leaves it to the count (`courseOf_ok_frame`). -/
theorem stepCounterCountsCompletedSteps : Obligations.StepCounterCountsCompletedSteps := by
  intro s t h
  obtain ⟨hrun, ⟨f, rfl, -⟩ | ⟨i, u, -, hcourse, rfl⟩⟩ := step_eq_next_iff.1 h
  · simp [RunState.isFaulted]
  · obtain ⟨hcfg, -, hsc, -⟩ := courseOf_ok_frame hcourse
    have hu := courseOf_ok_not_faulted hrun hcourse
    rw [State.countStep_sc, State.countStep_rs, hu, hcfg, hsc]
    simp [Option.isSome_iff_ne_none]

/-- Settles O43: a fault leaves pc, a jump sets it once (`conditionalJump_pc`), and the other formats advance it by
their words (`Completes.pc_eq_add_words`). -/
theorem pcMovesOnceAtTheEnd : Obligations.PcMovesOnceAtTheEnd := by
  intro i s t hrun h
  rcases exec_eq_next_iff.1 h with hcourse | ⟨f, -, rfl⟩
  · have hclean := courseOf_ok_not_faulted hrun hcourse
    have hdone := courseOf_completes hcourse
    refine ⟨fun hfault => by simp [hclean] at hfault, fun _ => ⟨?jump, ?halt, hdone.pc_eq_add_words⟩⟩
    case jump =>
      rintro m1 m2 (rfl | rfl) <;> exact conditionalJump_pc hcourse
    case halt =>
      rintro rfl
      cases hdone with
      | f0 => rfl
  · exact ⟨fun _ => rfl, fun hclean => by simp [RunState.isFaulted] at hclean⟩

/-- Settles O14: the resolver checks the raw parameter against the same bounds as the write. -/
theorem writeAddressIsTheCheckedRawParameter : Obligations.WriteAddressIsTheCheckedRawParameter := by
  intro s slot
  refine ⟨fun hslot => writeAddress_eq_error_iff.2 (.inl (memRead_eq_error_iff.2 ⟨hslot, rfl⟩)),
    fun r hr hout => writeAddress_eq_error_iff.2 (.inr ⟨r, hr, hout, rfl⟩), fun r hr hin => ?_⟩
  exact ⟨writeAddress_eq_ok_iff.2 ⟨hr, hin⟩, fun v => ⟨_, memWrite_of_inBounds v hin⟩⟩

/-- Settles O37: a fault ends the step as it is, and a completed instruction is counted (`State.countStep_eq`). -/
theorem stepRunsTheDecodedInstruction : Obligations.StepRunsTheDecodedInstruction := by
  intro s w i hrun hbelow hw hdecode
  have hfetch : fetchDecode s = .ok i := fetchDecode_eq_ok_iff.2 ⟨hbelow, w, hw, hdecode⟩
  cases hcourse : courseOf i s with
  | error f =>
    have hfault : (s.raise f).rs.isFaulted = true := rfl
    refine ⟨s.raise f, exec_of_courseOf_error hcourse, ?_⟩
    rw [if_pos hfault]
    exact step_eq_next_iff.2 ⟨hrun, .inl ⟨f, rfl, .inr ⟨i, hfetch, hcourse⟩⟩⟩
  | ok u =>
    refine ⟨u, exec_eq_next_iff.2 (.inl hcourse), ?_⟩
    rw [if_neg (by simp [courseOf_ok_not_faulted hrun hcourse]), ← State.countStep_eq]
    exact step_eq_next_iff.2 ⟨hrun, .inr ⟨i, u, hfetch, hcourse, rfl⟩⟩

/-- Settles O38: the step reports what `fetchDecode` does, in its order (`fetchDecode_eq_error_iff`). -/
theorem faultsBeforeDispatch : Obligations.FaultsBeforeDispatch := by
  intro s hrun
  refine ⟨fun hlim => ?ceiling, fun hbelow hpc => ?fetch, fun hbelow w f hw hdecode => ?decoder⟩ <;>
    refine step_of_fetchDecode_error hrun (fetchDecode_eq_error_iff.2 ?_)
  case ceiling => exact .inl ⟨hlim, rfl⟩
  case fetch => exact .inr ⟨hbelow, .inl (memRead_eq_error_iff.2 ⟨hpc, rfl⟩)⟩
  case decoder => exact .inr ⟨hbelow, .inr ⟨w, hw, hdecode⟩⟩

end Sys2Proof
end

section
/-! The statements of 41_arithmetic: a sum or a product in the word range is stored as it is, and one outside it faults
or is wrapped. Add and Multiply differ in the exact result alone, so each rule is stated once, for every instruction
with the course of F3S (`threeOperand`). Wrapping picks the one word of a residue class modulo 2^W: it fixes every word
(`wrapWord_of_isWord`) and depends on the residue alone (`wrapWord_congr`). -/

namespace Sys2Proof.Machine

/-! ### Wrapping (41_arithmetic R98) -/

/-- The word range has 2^W values. -/
theorem wmax_sub_wmin {W : Nat} (hW : 1 ≤ W) : wmax W - wmin W = 2 ^ W - 1 := by
  have hsplit : (2 : Int) ^ W = 2 ^ (W - 1) + 2 ^ (W - 1) := by
    rw [← two_mul, mul_pow_sub_one (by omega)]
  unfold wmax wmin
  omega

theorem wrapWord_of_isWord {W : Nat} (hW : 1 ≤ W) {v : Int} (h : isWord W v) : wrapWord W v = v := by
  have hsize := wmax_sub_wmin hW
  obtain ⟨hlo, hhi⟩ := h
  rw [wrapWord, Int.emod_eq_of_lt (by omega) (by omega), Int.sub_add_cancel]

theorem wrapWord_congr {W : Nat} {u v : Int} (h : u ≡ v [ZMOD 2 ^ W]) : wrapWord W u = wrapWord W v :=
  congrArg (· + wmin W) (h.sub_right (wmin W))

/-- What wrapping takes away is a multiple of 2^W: the quotient of the division that it makes. -/
theorem wrapWord_eq_add_mul (W : Nat) (v : Int) :
    wrapWord W v = v + -((v - wmin W) / 2 ^ W) * 2 ^ W := by
  rw [wrapWord, Int.emod_def]
  ring

theorem isWord_toInt {W : Nat} (x : BitVec W) : isWord W x.toInt :=
  ⟨BitVec.le_toInt x, Int.le_sub_one_of_lt BitVec.toInt_lt⟩

theorem toInt_ofInt_modEq (W : Nat) (v : Int) : (BitVec.ofInt W v).toInt ≡ v [ZMOD 2 ^ W] := by
  rw [BitVec.toInt_ofInt]
  exact_mod_cast Int.bmod_emod

/-- The low W bits, read as a two's-complement number, are the word that wrapping picks. -/
theorem wrapWord_eq_toInt_ofInt {W : Nat} (hW : 1 ≤ W) (v : Int) : wrapWord W v = (BitVec.ofInt W v).toInt := by
  calc wrapWord W v
      = wrapWord W (BitVec.ofInt W v).toInt := wrapWord_congr (toInt_ofInt_modEq W v).symm
    _ = (BitVec.ofInt W v).toInt := wrapWord_of_isWord hW (isWord_toInt _)

/-! ### An instruction with the course of F3S, when its operands resolve (41_arithmetic R95, R96, R98) -/

section

variable {s : State} {i : Instr} {m1 m2 : Mode} {a b d : Int}

theorem exec_of_result_ok {result : Int → Int → Except FaultRecord Int} {v : Int}
    (hi : courseOf i s = threeOperand s m1 m2 result) (ha : readOperand s (s.pc + 1) m1 = .ok a)
    (hb : readOperand s (s.pc + 2) m2 = .ok b) (hd : writeAddress s (s.pc + 3) = .ok d) (hv : result a b = .ok v) :
    exec i s = .next { s with mem := s.mem.set d.toNat v, pc := s.pc + 4 } :=
  exec_eq_next_iff.2 <| .inl <| hi.trans <| threeOperand_eq_ok_iff.2 ⟨a, b, d, v, ha, hb, hd, hv, rfl⟩

theorem exec_of_result_error {result : Int → Int → Except FaultRecord Int} {f : FaultRecord}
    (hi : courseOf i s = threeOperand s m1 m2 result) (ha : readOperand s (s.pc + 1) m1 = .ok a)
    (hb : readOperand s (s.pc + 2) m2 = .ok b) (hd : writeAddress s (s.pc + 3) = .ok d) (hf : result a b = .error f) :
    exec i s = .next (s.raise f) :=
  exec_of_courseOf_error <| hi.trans <| threeOperand_eq_error_iff.2 <|
    .inr ⟨a, ha, .inr ⟨b, hb, .inr ⟨d, hd, hf⟩⟩⟩

/-- Both policies for an exact result `op a b` that is not a word. -/
theorem exec_of_result_out_of_range {op : Int → Int → Int}
    (hi : courseOf i s = threeOperand s m1 m2 fun a b => rangeResult s.cfg (op a b))
    (ha : readOperand s (s.pc + 1) m1 = .ok a) (hb : readOperand s (s.pc + 2) m2 = .ok b)
    (hd : writeAddress s (s.pc + 3) = .ok d) (hout : ¬isWord s.cfg.wordBits (op a b)) :
    (s.cfg.overflowPolicy = .fault → exec i s = .next (s.raise .arithmeticOverflow)) ∧
    (s.cfg.overflowPolicy = .wrap → exec i s =
      .next { s with mem := s.mem.set d.toNat (wrapWord s.cfg.wordBits (op a b)), pc := s.pc + 4 }) := by
  constructor <;> intro hpolicy
  · exact exec_of_result_error hi ha hb hd (rangeResult_eq_error_iff.2 ⟨hout, hpolicy, rfl⟩)
  · exact exec_of_result_ok hi ha hb hd (rangeResult_eq_ok_iff.2 (.inr ⟨hout, hpolicy, rfl⟩))

end

end Sys2Proof.Machine

namespace Sys2Proof

/-! ### The obligations -/

open Machine

/-- Settles O17: Add and Multiply have the course of F3S with the range rule (`exec_of_result_out_of_range`). -/
theorem arithmeticOutOfRangeFaultsOrWraps : Obligations.ArithmeticOutOfRangeFaultsOrWraps := by
  intro s m1 m2 a b d ha hb hd
  exact ⟨exec_of_result_out_of_range (op := fun x y => x + y) rfl ha hb hd,
    exec_of_result_out_of_range (op := fun x y => x * y) rfl ha hb hd⟩

/-- Settles O18: wrapping picks the one word that is congruent to the exact result. -/
theorem wrapIsTwosComplement : Obligations.WrapIsTwosComplement := by
  intro W v hW
  exact ⟨isWord_wrapWord W v, ⟨_, wrapWord_eq_add_mul W v⟩, wrapWord_eq_toInt_ofInt hW v, wrapWord_of_isWord hW⟩

/-- Settles O15 (`exec_add_of_isWord`). -/
theorem addWritesTheSum : Obligations.AddWritesTheSum := by
  intro s m1 m2 a b d ha hb hd hword
  exact exec_add_of_isWord ha hb hd hword

/-- Settles O16: the range rule lets a product in the word range pass unchanged. -/
theorem multiplyWritesTheProduct : Obligations.MultiplyWritesTheProduct := by
  intro s m1 m2 a b d ha hb hd hword
  exact exec_of_result_ok rfl ha hb hd (rangeResult_eq_ok_iff.2 (.inl ⟨hword, rfl⟩))

end Sys2Proof
end

section
/-! The statements of 42_io. Input is the only instruction of its format and Output of its own, so the format alone says
which FIFO an instruction that completes moves (`Completes.iq_moves`, `Completes.oq_moves`). -/

namespace Sys2Proof

theorem Instr.format_eq_fd_iff {i : Instr} : i.format = .fd ↔ i = .input := by
  cases i <;> simp [Instr.format]

theorem Instr.format_eq_fs_iff {i : Instr} : i.format = .fs ↔ ∃ m, i = .output m := by
  cases i <;> simp [Instr.format]

namespace Machine

/-! ### The FIFO that a completed instruction moves (42_io R102) -/

theorem Completes.iq_moves {s t : State} {fmt : Format} (h : Completes s fmt t) :
    (fmt = .fd ∧ ∃ v, s.iq = v :: t.iq) ∨ (fmt ≠ .fd ∧ t.iq = s.iq) := by
  cases h with
  | fd hd hq => exact .inl ⟨rfl, _, hq⟩
  | f3s | fs | f2s | f0 => exact .inr ⟨by decide, rfl⟩

theorem Completes.oq_moves {s t : State} {fmt : Format} (h : Completes s fmt t) :
    (fmt = .fs ∧ ∃ v, t.oq = s.oq ++ [v]) ∨ (fmt ≠ .fs ∧ t.oq = s.oq) := by
  cases h with
  | fs => exact .inl ⟨rfl, _, rfl⟩
  | f3s | fd | f2s | f0 => exact .inr ⟨by decide, rfl⟩

/-! ### The mode of Output's operand (42_io R101) -/

theorem outputOperandMode_eq (c : Config) (m1 : Mode) :
    outputOperandMode c m1 = if c.outputMode = .honour then m1 else .position := by
  unfold outputOperandMode
  cases c.outputMode with
  | honour => rfl
  | position => rfl

end Machine

/-! ### The obligations -/

open Machine

/-- Settles O49: a fault moves neither FIFO, and a completed instruction moves the one of its format
(`Completes.iq_moves`, `Completes.oq_moves`). -/
theorem fifosMoveInProgramOrder : Obligations.FifosMoveInProgramOrder := by
  intro s t h
  obtain ⟨hrun, ⟨f, rfl, -⟩ | ⟨i, u, hfetch, hcourse, rfl⟩⟩ := step_eq_next_iff.1 h
  · exact ⟨.inl ⟨rfl, nofun⟩, .inl ⟨rfl, nofun⟩⟩
  · have hclean := courseOf_ok_not_faulted hrun hcourse
    have hdone := courseOf_completes hcourse
    rw [State.countStep_iq, State.countStep_oq, State.countStep_rs, hfetch]
    simp only [ne_eq, Except.ok.injEq, ← Instr.format_eq_fd_iff, ← Instr.format_eq_fs_iff]
    constructor
    · rcases hdone.iq_moves with ⟨hfd, hfront⟩ | ⟨hfd, hiq⟩
      · exact .inr ⟨hfd, hclean, hfront⟩
      · exact .inl ⟨hiq, fun _ => hfd⟩
    · rcases hdone.oq_moves with ⟨hfs, hback⟩ | ⟨hfs, hoq⟩
      · exact .inr ⟨hfs, hclean, hback⟩
      · exact .inl ⟨hoq, fun _ m hm => hfs (Instr.format_eq_fs_iff.2 ⟨m, hm⟩)⟩

/-- Settles O23 (`inputResult_eq_ok_iff`). -/
theorem inputPopsIntoTheDestination : Obligations.InputPopsIntoTheDestination := by
  intro s d v rest hd hq
  exact exec_eq_next_iff.2 (.inl (inputResult_eq_ok_iff.2 ⟨d, v, rest, hd, hq, rfl⟩))

/-- Settles O24: the destination is resolved before IQ is examined (`inputResult_eq_error_iff`). -/
theorem inputFaultsOnDestinationThenEmptyQueue : Obligations.InputFaultsOnDestinationThenEmptyQueue := by
  refine fun s => ⟨fun f hf => ?_, fun d hd hq => ?_⟩ <;>
    refine exec_of_courseOf_error (inputResult_eq_error_iff.2 ?_)
  · exact .inl hf
  · exact .inr ⟨d, hd, hq, rfl⟩

/-- Settles O26 (`outputResult_eq_ok_iff`). -/
theorem outputAppendsItsOperand : Obligations.OutputAppendsItsOperand := by
  intro s m1 v hv hroom
  rw [← outputOperandMode_eq] at hv
  exact exec_eq_next_iff.2 (.inl (outputResult_eq_ok_iff.2 ⟨v, hv, hroom, rfl⟩))

/-- Settles O27: the operand is read before the room in OQ is checked (`outputResult_eq_error_iff`). -/
theorem outputFaultsOnOperandThenFullQueue : Obligations.OutputFaultsOnOperandThenFullQueue := by
  intro s m1
  rw [← outputOperandMode_eq]
  refine ⟨fun f hf => ?_, fun v hv hfull => ?_⟩ <;>
    refine exec_of_courseOf_error (outputResult_eq_error_iff.2 ?_)
  · exact .inl hf
  · exact .inr ⟨v, hv, hfull, rfl⟩

end Sys2Proof
end

section
/-! The statements of 43_control. The two jumps share one course and differ in which conditions take the jump, so each
rule is stated once, for every instruction with the course of F2S (`conditionalJump`). -/

namespace Sys2Proof.Machine

/-! ### An instruction with the course of F2S (43_control R107, R108) -/

section

variable {s : State} {i : Instr} {m1 m2 : Mode} {taken : Int → Bool} {c x : Int} {f : FaultRecord}

theorem exec_of_jump_taken (hi : courseOf i s = conditionalJump s m1 m2 taken)
    (hc : readOperand s (s.pc + 1) m1 = .ok c) (htaken : taken c = true)
    (hx : readOperand s (s.pc + 2) m2 = .ok x) : exec i s = .next (s.jumpTo x) :=
  exec_eq_next_iff.2 <| .inl <| hi.trans <| conditionalJump_eq_ok_iff.2 ⟨c, hc, .inl ⟨htaken, x, hx, rfl⟩⟩

theorem exec_of_jump_untaken (hi : courseOf i s = conditionalJump s m1 m2 taken)
    (hc : readOperand s (s.pc + 1) m1 = .ok c) (huntaken : taken c = false)
    (heager : s.cfg.jumpEval = .eager → ∃ x, readOperand s (s.pc + 2) m2 = .ok x) :
    exec i s = .next (s.advance 3) :=
  exec_eq_next_iff.2 <| .inl <| hi.trans <| conditionalJump_eq_ok_iff.2 ⟨c, hc, .inr ⟨huntaken, heager, rfl⟩⟩

theorem exec_of_condition_error (hi : courseOf i s = conditionalJump s m1 m2 taken)
    (hc : readOperand s (s.pc + 1) m1 = .error f) : exec i s = .next (s.raise f) :=
  exec_of_courseOf_error <| hi.trans <| conditionalJump_eq_error_iff.2 (.inl hc)

/-- The target is resolved where the jump is taken, and under Eager in any case. -/
theorem exec_of_target_error (hi : courseOf i s = conditionalJump s m1 m2 taken)
    (hc : readOperand s (s.pc + 1) m1 = .ok c) (hresolves : taken c = true ∨ s.cfg.jumpEval = .eager)
    (hx : readOperand s (s.pc + 2) m2 = .error f) : exec i s = .next (s.raise f) :=
  exec_of_courseOf_error <| hi.trans <| conditionalJump_eq_error_iff.2 (.inr ⟨c, hc, hresolves, hx⟩)

end

end Sys2Proof.Machine

namespace Sys2Proof

/-! ### The obligations -/

open Machine

/-- Settles O34: the taken jump only sets pc (`exec_of_jump_taken`), so the next step's fetch finds the target outside
[0, L) (`faultsBeforeDispatch`). -/
theorem outOfRangeJumpFaultsAtTheNextFetch : Obligations.OutOfRangeJumpFaultsAtTheNextFetch := by
  intro s w m1 m2 c x hrun hlim hw hjump hc hx hout
  have hbelow : s.cfg.stepLimit ≠ some s.sc := by simp [hlim]
  obtain ⟨i, hdecode, hexec⟩ : ∃ i, decode s.cfg w = .ok i ∧ exec i s = .next (s.jumpTo x) := by
    rcases hjump with ⟨hdecode, htaken⟩ | ⟨hdecode, htaken⟩ <;>
      exact ⟨_, hdecode, exec_of_jump_taken rfl hc (decide_eq_true htaken) hx⟩
  have hfetch : fetchDecode s = .ok i := fetchDecode_eq_ok_iff.2 ⟨hbelow, w, hw, hdecode⟩
  obtain ⟨-, hfault, -⟩ := faultsBeforeDispatch (s.jumpTo x) hrun
  exact ⟨s.jumpTo x, (step_eq_exec hrun hlim hfetch).trans hexec, hrun, rfl, rfl, rfl, rfl, hfault hbelow hout⟩

/-- Settles O29: Jump-if-true is taken on any word but 0 (`exec_of_jump_taken`, `exec_of_jump_untaken`). -/
theorem jumpIfTrueSetsThePc : Obligations.JumpIfTrueSetsThePc := by
  refine fun s m1 m2 c hc => ⟨fun htaken t ht => ?_, fun hzero heager => ?_⟩
  · exact exec_of_jump_taken rfl hc (decide_eq_true htaken) ht
  · exact exec_of_jump_untaken rfl hc (decide_eq_false (not_not.2 hzero)) heager

/-- Settles O30: Jump-if-false is taken on the word 0 only (`exec_of_jump_taken`, `exec_of_jump_untaken`). -/
theorem jumpIfFalseSetsThePc : Obligations.JumpIfFalseSetsThePc := by
  refine fun s m1 m2 c hc => ⟨fun htaken t ht => ?_, fun hnonzero heager => ?_⟩
  · exact exec_of_jump_taken rfl hc (decide_eq_true htaken) ht
  · exact exec_of_jump_untaken rfl hc (decide_eq_false hnonzero) heager

/-- Settles O31: both jumps resolve the condition first, and the target where they need it (`exec_of_condition_error`,
`exec_of_target_error`). -/
theorem jumpFaultsOnConditionThenTarget : Obligations.JumpFaultsOnConditionThenTarget := by
  refine fun s m1 m2 f => ⟨fun hf => ?condition, fun c hc hf => ?target⟩
  case condition =>
    exact ⟨exec_of_condition_error rfl hf, exec_of_condition_error rfl hf⟩
  case target =>
    constructor <;> intro hresolves <;>
      exact exec_of_target_error rfl hc (hresolves.imp_left decide_eq_true) hf

/-- Settles O33: Halt is the one update `State.halted`, and cannot fault. -/
theorem haltSetsTheRunStateOnly : Obligations.HaltSetsTheRunStateOnly :=
  fun _ => exec_eq_next_iff.2 (.inl rfl)

end Sys2Proof
end

section
/-! The statements of 44_compare. Less-than and Equals have the course of F3S, with a result that cannot fault: the word
of a truth value (R117, `truthWord_decide`). So `exec_of_result_ok` is the whole rule of each. -/

namespace Sys2Proof.Machine

theorem truthWord_decide (p : Prop) [Decidable p] : truthWord (decide p) = if p then 1 else 0 := by
  simp only [truthWord, decide_eq_true_iff]

end Sys2Proof.Machine

namespace Sys2Proof

/-! ### The obligations -/

open Machine

/-- Settles O19: the comparison is of the two operands as integers, and its truth value is the word 1 or 0
(`truthWord_decide`). -/
theorem lessThanWritesOneOrZero : Obligations.LessThanWritesOneOrZero := by
  intro s m1 m2 a b d ha hb hd
  rw [← truthWord_decide]
  exact exec_of_result_ok rfl ha hb hd rfl

/-- Settles O20, as Less-than with equality for the order. -/
theorem equalsWritesOneOrZero : Obligations.EqualsWritesOneOrZero := by
  intro s m1 m2 a b d ha hb hd
  rw [← truthWord_decide]
  exact exec_of_result_ok rfl ha hb hd rfl

end Sys2Proof
end

section
/-! The statements of 60_exceptions: every fault has its cause, and what the host receives at the end of a run. A fault
is raised by the fetch and the decoder or by the course of the decoded instruction (`step_faulted_cases`), and each of the
two has one lemma that gives the cause of every fault it raises (`decode_error_cause`, `courseOf_error_cause`). -/

namespace Sys2Proof

open Machine

/-! ### The cause of the decoder's faults (40_execution_cycle R79 to R81, 60_exceptions R121) -/

theorem opcodeOf_range (w : Int) : -99 ≤ opcodeOf w ∧ opcodeOf w ≤ 99 := by
  rcases lt_or_ge w 0 with hw | hw
  · have := opcodeOf_range_of_neg hw
    omega
  · rw [opcodeOf_of_nonneg hw]
    omega

theorem dig_range (w : Int) (k : Nat) : -9 ≤ dig w k ∧ dig w k ≤ 9 := by
  rcases lt_or_ge w 0 with hw | hw
  · have := dig_range_of_neg hw k
    omega
  · rw [dig_of_nonneg hw]
    omega

theorem selectInstr_error_cause {op d1 d2 : Int} {f : FaultRecord} (h : selectInstr op d1 d2 = .error f) :
    ¬((1 ≤ op ∧ op ≤ 8) ∨ op = 99) ∧ f = .invalidOpcode op := by
  obtain ⟨hmap, hf⟩ := selectInstr_eq_error_iff.1 h
  exact ⟨instrOf_eq_none_iff.1 hmap, hf⟩

/-- The decoder refuses an opcode that is not in the map, or a checked digit that is not 0 or 1; the latter of a legal
opcode, but under Always. -/
theorem decode_error_cause {c : Config} {w : Int} {f : FaultRecord} (h : decode c w = .error f) :
    (¬((1 ≤ opcodeOf w ∧ opcodeOf w ≤ 8) ∨ opcodeOf w = 99) ∧ f = .invalidOpcode (opcodeOf w)) ∨
      ∃ d ∈ checkedDigits c (opcodeOf w) (dig w 2) (dig w 3), ¬(d = 0 ∨ d = 1) ∧
        (c.modeCheck ≠ .always → (1 ≤ opcodeOf w ∧ opcodeOf w ≤ 8) ∨ opcodeOf w = 99) ∧
        f = .invalidParameterMode d := by
  rw [decode_eq_error_iff] at h
  by_cases halways : c.modeCheck = .always
  · rw [if_pos halways] at h
    rcases h with hdigits | ⟨-, hopcode⟩
    · obtain ⟨d, hd, hbad, rfl⟩ := checkDigits_error hdigits
      exact .inr ⟨d, hd, hbad, absurd halways, rfl⟩
    · exact .inl (selectInstr_error_cause hopcode)
  · rw [if_neg halways] at h
    rcases h with hopcode | ⟨⟨i, hi⟩, hdigits⟩
    · exact .inl (selectInstr_error_cause hopcode)
    · obtain ⟨d, hd, hbad, rfl⟩ := checkDigits_error hdigits
      exact .inr ⟨d, hd, hbad, fun _ => exists_instrOf_iff.1 ⟨i, selectInstr_eq_ok_iff.1 hi⟩, rfl⟩

/-- A refused digit is 2 to 9, or negative. Only a negative word has negative digits, and its opcode is illegal, so that
its digits are checked under Always alone (decision D3). -/
theorem refused_digit_range {c : Config} {w d : Int}
    (hd : d ∈ checkedDigits c (opcodeOf w) (dig w 2) (dig w 3)) (hbad : ¬(d = 0 ∨ d = 1))
    (hlegal : c.modeCheck ≠ .always → (1 ≤ opcodeOf w ∧ opcodeOf w ≤ 8) ∨ opcodeOf w = 99) :
    (2 ≤ d ∧ d ≤ 9) ∨ (-9 ≤ d ∧ d ≤ -1 ∧ c.modeCheck = .always) := by
  obtain ⟨k, rfl⟩ : ∃ k, d = dig w k := by
    have hmem : d = dig w 2 ∨ d = dig w 3 := by simpa using checkedDigits_subset _ _ _ _ hd
    exact hmem.elim (fun h => ⟨2, h⟩) fun h => ⟨3, h⟩
  rcases lt_or_ge w 0 with hw | hw
  · have hop := opcodeOf_range_of_neg hw
    have hdig := dig_range_of_neg hw k
    have halways : c.modeCheck = .always := by
      by_contra hne
      have := hlegal hne
      omega
    exact .inr ⟨by omega, by omega, halways⟩
  · have hdig := dig_range w k
    have hnonneg : 0 ≤ dig w k := by
      rw [dig_of_nonneg hw]
      omega
    exact .inl (by omega)

namespace Machine

/-! ### The cause of an instruction's faults (60_exceptions R121, R122) -/

/-- F3S faults on an address that one of its three operands checks, or in its result. -/
theorem threeOperand_error_cause {s : State} {m1 m2 : Mode} {result : Int → Int → Except FaultRecord Int}
    {f : FaultRecord} (h : threeOperand s m1 m2 result = .error f) :
    (∃ a, f = .outOfBounds a ∧ ¬s.mem.inBounds a ∧
        (s.sourceChecks 1 m1 a ∨ s.sourceChecks 2 m2 a ∨ s.destinationChecks 3 a)) ∨
      ∃ a b, readOperand s (s.pc + 1) m1 = .ok a ∧ readOperand s (s.pc + 2) m2 = .ok b ∧ result a b = .error f := by
  rcases threeOperand_eq_error_iff.1 h with h1 | ⟨a, ha, h2 | ⟨b, hb, h3 | ⟨d, -, hresult⟩⟩⟩
  · obtain ⟨x, hf, hout, hx⟩ := readOperand_error_checked h1
    exact .inl ⟨x, hf, hout, .inl hx⟩
  · obtain ⟨x, hf, hout, hx⟩ := readOperand_error_checked h2
    exact .inl ⟨x, hf, hout, .inr (.inl hx)⟩
  · obtain ⟨x, hf, hout, hx⟩ := writeAddress_error_checked h3
    exact .inl ⟨x, hf, hout, .inr (.inr hx)⟩
  · exact .inr ⟨a, b, ha, hb, hresult⟩

/-- F2S faults on an address that its condition checks, or its target where the jump resolves it. -/
theorem conditionalJump_error_cause {s : State} {m1 m2 : Mode} {taken : Int → Bool} {f : FaultRecord}
    (h : conditionalJump s m1 m2 taken = .error f) :
    ∃ a, f = .outOfBounds a ∧ ¬s.mem.inBounds a ∧
      (s.sourceChecks 1 m1 a ∨
        ((s.cfg.jumpEval = .eager ∨ ∃ c, taken c = true ∧ readOperand s (s.pc + 1) m1 = .ok c) ∧
          s.sourceChecks 2 m2 a)) := by
  rcases conditionalJump_eq_error_iff.1 h with h1 | ⟨c, hc, hresolves, h2⟩
  · obtain ⟨x, hf, hout, hx⟩ := readOperand_error_checked h1
    exact ⟨x, hf, hout, .inl hx⟩
  · obtain ⟨x, hf, hout, hx⟩ := readOperand_error_checked h2
    exact ⟨x, hf, hout, .inr ⟨hresolves.symm.imp_right fun htaken => ⟨c, htaken, hc⟩, hx⟩⟩

/-- What can go wrong in the course of an instruction, with the fault that reports it. -/
inductive CourseFault (s : State) : Instr → FaultRecord → Prop where
  | operand {i : Instr} {a : Int} (hout : ¬s.mem.inBounds a) (hchecks : s.operandChecks i a) :
      CourseFault s i (.outOfBounds a)
  | sum {m1 m2 : Mode} {a b : Int} (ha : readOperand s (s.pc + 1) m1 = .ok a)
      (hb : readOperand s (s.pc + 2) m2 = .ok b) (hrange : ¬isWord s.cfg.wordBits (a + b))
      (hpolicy : s.cfg.overflowPolicy = .fault) : CourseFault s (.add m1 m2) .arithmeticOverflow
  | product {m1 m2 : Mode} {a b : Int} (ha : readOperand s (s.pc + 1) m1 = .ok a)
      (hb : readOperand s (s.pc + 2) m2 = .ok b) (hrange : ¬isWord s.cfg.wordBits (a * b))
      (hpolicy : s.cfg.overflowPolicy = .fault) : CourseFault s (.multiply m1 m2) .arithmeticOverflow
  | noInput (hempty : s.iq = []) : CourseFault s .input .inputExhausted
  | noRoom {m1 : Mode} (hfull : s.cfg.outDepth = some s.oq.length) : CourseFault s (.output m1) .outputOverflow

/-- Every fault of an instruction has its cause, format by format. -/
theorem courseOf_error_cause {i : Instr} {s : State} {f : FaultRecord} (h : courseOf i s = .error f) :
    CourseFault s i f := by
  cases i with
  | add m1 m2 =>
    rcases threeOperand_error_cause h with ⟨x, rfl, hout, hx⟩ | ⟨a, b, ha, hb, hresult⟩
    · exact .operand hout hx
    · obtain ⟨hrange, hpolicy, rfl⟩ := rangeResult_eq_error_iff.1 hresult
      exact .sum ha hb hrange hpolicy
  | multiply m1 m2 =>
    rcases threeOperand_error_cause h with ⟨x, rfl, hout, hx⟩ | ⟨a, b, ha, hb, hresult⟩
    · exact .operand hout hx
    · obtain ⟨hrange, hpolicy, rfl⟩ := rangeResult_eq_error_iff.1 hresult
      exact .product ha hb hrange hpolicy
  | lessThan m1 m2 | equals m1 m2 =>
    rcases threeOperand_error_cause h with ⟨x, rfl, hout, hx⟩ | ⟨_, _, -, -, hresult⟩
    · exact .operand hout hx
    · cases hresult
  | input =>
    rcases inputResult_eq_error_iff.1 h with hd | ⟨d, -, hempty, rfl⟩
    · obtain ⟨x, rfl, hout, hx⟩ := writeAddress_error_checked hd
      exact .operand hout hx
    · exact .noInput hempty
  | output m1 =>
    rcases outputResult_eq_error_iff.1 h with hv | ⟨v, -, hfull, rfl⟩
    · obtain ⟨x, rfl, hout, hx⟩ := readOperand_error_checked hv
      exact .operand hout hx
    · exact .noRoom hfull
  | jumpIfTrue m1 m2 | jumpIfFalse m1 m2 =>
    obtain ⟨x, rfl, hout, hx⟩ := conditionalJump_error_cause h
    exact .operand hout (by simpa [State.operandChecks] using hx)
  | halt => cases h

/-- A step that ends in Faulted has its fault from `fetchDecode`, or from the course of the instruction fetched. -/
theorem step_faulted_cases {s t : State} {f : FaultRecord} (h : step s = .next t) (hf : t.rs = .faulted f) :
    fetchDecode s = .error f ∨ ∃ i, fetchDecode s = .ok i ∧ courseOf i s = .error f := by
  obtain ⟨hrun, ⟨g, rfl, hcause⟩ | ⟨i, u, -, hcourse, rfl⟩⟩ := step_eq_next_iff.1 h
  · rwa [RunState.faulted.inj hf] at hcause
  · have hclean := courseOf_ok_not_faulted hrun hcourse
    rw [← State.countStep_rs, hf] at hclean
    cases hclean

/-! ### The final memory (60_exceptions R131) -/

@[simp] theorem Memory.length_toImage (m : Memory) : m.toImage.length = m.len := by
  simp [Memory.toImage]

@[simp] theorem Memory.getElem_toImage (m : Memory) (a : Nat) (h : a < m.toImage.length) :
    m.toImage[a] = m.get a := by
  simp [Memory.toImage]

theorem Memory.toImage_ofImage (image : List Int) : (Memory.ofImage image).toImage = image := by
  refine List.ext_getElem (Memory.length_toImage _) fun a _ ha => ?_
  rw [Memory.getElem_toImage, Memory.get_ofImage, List.getD_eq_getElem _ _ ha]

end Machine

/-! ### The obligations -/

/-- Settles O41: the fault is that of the step ceiling, of the fetch, of the decoder (`decode_error_cause`), or of the
instruction (`courseOf_error_cause`), and each names its cause. -/
theorem faultsOnlyForTheirCause : Obligations.FaultsOnlyForTheirCause := by
  intro s t f h hf
  rcases step_faulted_cases h hf with hfetch | ⟨i, hfetch, hcourse⟩
  · rcases fetchDecode_eq_error_iff.1 hfetch with ⟨hceiling, rfl⟩ | ⟨-, hread | ⟨w, hw, hdecode⟩⟩
    · exact hceiling
    · obtain ⟨hout, rfl⟩ := memRead_eq_error_iff.1 hread
      exact ⟨hout, .inl rfl⟩
    · rcases decode_error_cause hdecode with ⟨hillegal, rfl⟩ | ⟨d, hd, hbad, hlegal, rfl⟩
      · obtain ⟨hlow, hhigh⟩ := opcodeOf_range w
        exact ⟨w, hw, rfl, hlow, hhigh, hillegal⟩
      · exact ⟨⟨w, hw, hd, hlegal⟩, refused_digit_range hd hbad hlegal⟩
  · obtain ⟨-, w, hw, hdecode⟩ := fetchDecode_eq_ok_iff.1 hfetch
    cases courseOf_error_cause hcourse with
    | operand hout hchecks => exact ⟨hout, .inr ⟨w, i, hw, hdecode, hchecks⟩⟩
    | sum ha hb hrange hpolicy => exact ⟨hpolicy, w, _, _, _, _, hw, ha, hb, .inl ⟨hdecode, hrange⟩⟩
    | product ha hb hrange hpolicy => exact ⟨hpolicy, w, _, _, _, _, hw, ha, hb, .inr ⟨hdecode, hrange⟩⟩
    | noInput hempty => exact ⟨hempty, w, hw, hdecode⟩
    | noRoom hfull => exact ⟨hfull, w, _, hw, hdecode⟩

/-- Settles O53: the list has the L cells in address order (`Memory.getElem_toImage`), and a loaded memory reads as the
image (`Memory.toImage_ofImage`). -/
theorem finalMemoryListsTheCells : Obligations.FinalMemoryListsTheCells := by
  refine ⟨Memory.toImage_ofImage, fun s => ⟨s.mem.length_toImage, fun a ha => ?_⟩⟩
  have hin : s.mem.inBounds a := ⟨Int.natCast_nonneg a, Int.ofNat_lt.2 (s.mem.length_toImage ▸ ha)⟩
  rw [Memory.getElem_toImage]
  exact memRead_of_inBounds hin

/-- Settles O55: each of the host's views is one case of RS. -/
theorem hostSeesResultsOnlyAtTheEnd : Obligations.HostSeesResultsOnlyAtTheEnd := by
  intro s
  refine ⟨fun hrs => ?_, fun hrs => ?_, fun f hrs => ?_⟩ <;>
    simp only [State.hostStatus, State.hostOutputs, State.hostFinalMemory, State.hostResult, State.hostLoad, hrs,
      implies_true, and_self]

end Sys2Proof
end

section
/-! The statements of 70_reset_and_hazards. A jump at the end of the memory is one of the two cases of 43_control, with a
target slot that is no address; a jump to itself is a fixed point of the step, which fuel cannot bring to an end; and an
instruction placed for the next fetch stands at pc, under parameters that decode as before. -/

namespace Sys2Proof.Machine

/-! ### Hazards (70_reset_and_hazards R147, R149) -/

/-- The slot right behind the last cell has no raw parameter, so no operand there resolves in either mode. -/
theorem readOperand_past_the_end {s : State} {slot : Int} (h : slot = (s.mem.len : Int)) (m : Mode) :
    readOperand s slot m = .error (.outOfBounds (s.mem.len : Int)) := by
  have hout : ¬s.mem.inBounds slot := fun ⟨_, hlt⟩ => absurd h hlt.ne
  exact readOperand_eq_error_iff.2 (.inl (memRead_eq_error_iff.2 ⟨hout, h ▸ rfl⟩))

/-- A running state that steps to itself is still there when any fuel runs out. -/
theorem runFor_of_step_self {s : State} (hrun : s.rs = .running) (h : step s = .next s) (n : Nat) :
    runFor n s = .outOfFuel s := by
  induction n with
  | zero => exact if_pos hrun
  | succ n ih => rw [runFor, h]; exact ih

/-! ### An instruction placed for the next fetch (70_reset_and_hazards R142) -/

/-- A ceiling already reached is gone, and another one was not reached. -/
theorem liftCeiling_below (c : Config) (sc : Nat) : (liftCeiling c sc).stepLimit ≠ some sc := by
  unfold liftCeiling
  split
  case isTrue => exact nofun
  case isFalse h => exact h

/-- The decoder does not read STEP_LIMIT (40_execution_cycle R78 to R82). -/
theorem decode_liftCeiling (c : Config) (sc : Nat) (w : Int) : decode (liftCeiling c sc) w = decode c w := by
  unfold liftCeiling
  split <;> rfl

/-- The first placed word is the one fetched, and no ceiling stops the fetch. -/
theorem fetchDecode_placeAtPc (s : State) (v : Int) (vs : List Int) :
    fetchDecode (s.placeAtPc (v :: vs)) = decode s.cfg v := by
  obtain ⟨hlt, hget⟩ := placeWords_first v vs s.mem s.pc.toNat
  have hread : memRead (s.placeAtPc (v :: vs)) (s.pc.toNat : Int) = .ok v :=
    memRead_eq_ok_iff.2 ⟨⟨Int.natCast_nonneg _, Int.ofNat_lt.2 hlt⟩, hget⟩
  calc fetchDecode (s.placeAtPc (v :: vs))
      = memRead (s.placeAtPc (v :: vs)) (s.pc.toNat : Int) >>= decode (liftCeiling s.cfg s.sc) :=
        if_neg (liftCeiling_below s.cfg s.sc)
    _ = decode (liftCeiling s.cfg s.sc) v := by rw [hread]; rfl
    _ = decode s.cfg v := decode_liftCeiling s.cfg s.sc v

end Sys2Proof.Machine

namespace Sys2Proof

/-! ### The obligations -/

open Machine

/-- Settles O35: the target slot does not resolve (`readOperand_past_the_end`), which faults a jump that resolves it
(`jumpFaultsOnConditionThenTarget`) and does not matter to an untaken one under Lazy. -/
theorem jumpWhoseTargetSlotIsPastTheEnd : Obligations.JumpWhoseTargetSlotIsPastTheEnd := by
  intro s m1 m2 c hend hc
  have hslot : readOperand s (s.pc + 2) m2 = .error (.outOfBounds (s.mem.len : Int)) := readOperand_past_the_end hend m2
  obtain ⟨-, htarget⟩ := jumpFaultsOnConditionThenTarget s m1 m2 (.outOfBounds (s.mem.len : Int))
  obtain ⟨htrue, hfalse⟩ := htarget c hc hslot
  have not_eager : s.cfg.jumpEval = .lazy → s.cfg.jumpEval = .eager → ∃ x, readOperand s (s.pc + 2) m2 = .ok x :=
    fun hlazy heager => nomatch hlazy.symm.trans heager
  refine ⟨fun hzero hlazy => ?_, fun h => htrue (.inl h), fun h => htrue (.inr h),
    fun hnonzero hlazy => ?_, fun h => hfalse (.inl h), fun h => hfalse (.inr h)⟩
  · exact (jumpIfTrueSetsThePc s m1 m2 c hc).2 hzero (not_eager hlazy)
  · exact (jumpIfFalseSetsThePc s m1 m2 c hc).2 hnonzero (not_eager hlazy)

/-- Settles O36: the taken jump sets pc to the value it has, so the step ends where it began and no fuel ends the run
(`runFor_of_step_self`). -/
theorem selfLoopNeverEnds : Obligations.SelfLoopNeverEnds := by
  intro s w m1 m2 c hrun hlim hw hc hjump htarget
  obtain ⟨i, hdecode, hexec⟩ : ∃ i, decode s.cfg w = .ok i ∧ exec i s = .next s := by
    rcases hjump with ⟨hdecode, hnonzero⟩ | ⟨hdecode, hzero⟩
    · exact ⟨_, hdecode, (jumpIfTrueSetsThePc s m1 m2 c hc).1 hnonzero s.pc htarget⟩
    · exact ⟨_, hdecode, (jumpIfFalseSetsThePc s m1 m2 c hc).1 hzero s.pc htarget⟩
  have hfetch : fetchDecode s = .ok i := fetchDecode_eq_ok_iff.2 ⟨by simp [hlim], w, hw, hdecode⟩
  have hself : step s = .next s := (step_eq_exec hrun hlim hfetch).trans hexec
  exact ⟨hself, runFor_of_step_self hrun hself⟩

/-- Settles O58: placing the words sets RS to Running, and the first of them is fetched and decoded
(`fetchDecode_placeAtPc`). -/
theorem placedInstructionIsTheNextOneFetched : Obligations.PlacedInstructionIsTheNextOneFetched :=
  fun s _ _ _ hdecode => ⟨rfl, (fetchDecode_placeAtPc s _ _).trans hdecode⟩

/-- Settles O56: the empty load is accepted (`loadImage_empty`), and in an empty memory the fetch at pc = 0 finds no
address (`faultsBeforeDispatch`). -/
theorem resetIsTheEmptyLoad : Obligations.ResetIsTheEmptyLoad := by
  obtain ⟨-, hfetch, -⟩ := faultsBeforeDispatch State.reset rfl
  exact ⟨loadImage_empty, hfetch nofun (by decide)⟩

end Sys2Proof
end
